-- ==== Sys2Proof/Word.lean ====
section
/-! DEFINITION. The widths the spec computes with (00_scope.md R6, R8; 20_memory.md R62). -/

namespace Sys2Proof

/-- A 32-bit word of the host port, and of a 32-bit register (20_memory.md R62). -/
abbrev Word := BitVec 32

/-- A byte of the sector buffer, and a byte lane of the host port (20_memory.md R61). -/
abbrev Byte := BitVec 8

/-- A partition-slot index, 0 to 3 (00_scope.md R12; 30_encoding.md R92: "Every value 0–3 is legal"). -/
abbrev Slot := Fin 4

end Sys2Proof
end

