-- ==== Sys2Proof/Syntax.lean ====
section
/-! DEFINITION. The eight commands of MBRC (30_encoding.md R91): one constructor per row of
spec/opcode_table.json. -/

namespace Sys2Proof

/-- The assigned opcodes (30_encoding.md R91), without operands. -/
inductive Opcode where
  | chsDec
  | chsEnc
  | lbaDec
  | lbaEnc
  | peDec
  | peEnc
  | mbrDec
  | mbrEnc
  deriving DecidableEq, Repr

/-- A command with its operand fields: SLOT for PE_DEC and PE_ENC (30_encoding.md R92), IGN for
MBR_DEC (R93). Every other operand is a register or the sector buffer (R97). -/
inductive Instr where
  /-- CHS_DEC (41_chs.md R132). -/
  | chsDec
  /-- CHS_ENC (41_chs.md R133). -/
  | chsEnc
  /-- LBA_DEC (42_lba.md R150). -/
  | lbaDec
  /-- LBA_ENC (42_lba.md R151). -/
  | lbaEnc
  /-- PE_DEC s (43_partition_entry.md R175). -/
  | peDec (slot : Slot)
  /-- PE_ENC s (43_partition_entry.md R176). -/
  | peEnc (slot : Slot)
  /-- MBR_DEC, with the flag `ignore_signature` (44_mbr.md R200). -/
  | mbrDec (ign : Bool)
  /-- MBR_ENC (44_mbr.md R203). -/
  | mbrEnc
  deriving DecidableEq, Repr

end Sys2Proof
end

