-- ==== Sys2Proof/WellFormed.lean ====
section
/-! DEFINITION. Which command words name a command: the conditions (a) to (d) of 30_encoding.md R94,
each one check, read from the word as a number (00_scope.md R8). The decoder (Decode.lean) is written
from the dispatch of R96 instead, and an obligation says that the two agree.

Every term of `Instr` is well formed by its type: SLOT is a `Fin 4` and "Every value 0–3 is legal"
(R92), IGN is a flag (R93). So what can be ill formed is a command word. -/

namespace Sys2Proof.CommandWord

/-- OP, bits [7:0] (R90). -/
def op (w : Word) : Nat := w.toNat % 2 ^ 8

/-- SLOT, bits [9:8] (R90). -/
def slot (w : Word) : Nat := w.toNat / 2 ^ 8 % 2 ^ 2

/-- The reserved bits [15:10] (R90). -/
def reservedLow (w : Word) : Nat := w.toNat / 2 ^ 10 % 2 ^ 6

/-- IGN, bit 16 (R90). -/
def ign (w : Word) : Nat := w.toNat / 2 ^ 16 % 2

/-- The reserved bits [31:17] (R90). -/
def reservedHigh (w : Word) : Nat := w.toNat / 2 ^ 17

/-- Not (a): OP is one of the eight values of R91. -/
def opAssigned (w : Word) : Bool :=
  [0x01, 0x02, 0x03, 0x04, 0x10, 0x11, 0x20, 0x21].contains (op w)

/-- Not (b): every reserved bit is 0. -/
def reservedClear (w : Word) : Bool := reservedLow w == 0 && reservedHigh w == 0

/-- Not (c): SLOT is 0 unless OP is PE_DEC or PE_ENC. -/
def slotAllowed (w : Word) : Bool := slot w == 0 || op w == 0x10 || op w == 0x11

/-- Not (d): IGN is 0 unless OP is MBR_DEC. -/
def ignAllowed (w : Word) : Bool := ign w == 0 || op w == 0x20

/-- The word names a command: none of R94's conditions holds. -/
def wellFormed (w : Word) : Bool :=
  opAssigned w && reservedClear w && slotAllowed w && ignAllowed w

end Sys2Proof.CommandWord
end

