-- ==== Sys2Proof/Decode.lean ====
section
/-! DEFINITION. The command-word decoder, total on every 32-bit word (30_encoding.md R99) and written
from the dispatch of R96; after it the encoder, from the layout of R90 and the opcodes of R91. -/

namespace Sys2Proof

/-- Why a command word names no command: R94 (a) to (d), tried in the order of R96. -/
inductive IllegalReason where
  /-- R94 (b): a reserved bit is 1. -/
  | reservedBit
  /-- R94 (a): OP is not assigned. -/
  | reservedOpcode
  /-- R94 (c): SLOT ≠ 0 on a command that takes none. -/
  | slotNotAllowed
  /-- R94 (d): IGN = 1 on a command other than MBR_DEC. -/
  | ignNotAllowed
  deriving DecidableEq, Repr

/-- What a command word names (R99: "every 32-bit W names one of the eight commands or ILLEGAL"). -/
inductive Decoded where
  | command (i : Instr)
  | illegal (why : IllegalReason)
  deriving DecidableEq, Repr

/-- The opcode map of R91, from the OP byte. -/
def opcodeOfByte (b : Byte) : Option Opcode :=
  if b = 0x01#8 then some .chsDec
  else if b = 0x02#8 then some .chsEnc
  else if b = 0x03#8 then some .lbaDec
  else if b = 0x04#8 then some .lbaEnc
  else if b = 0x10#8 then some .peDec
  else if b = 0x11#8 then some .peEnc
  else if b = 0x20#8 then some .mbrDec
  else if b = 0x21#8 then some .mbrEnc
  else none

/-- The opcode map of R91, to the OP byte. -/
def byteOfOpcode : Opcode → Byte
  | .chsDec => 0x01#8
  | .chsEnc => 0x02#8
  | .lbaDec => 0x03#8
  | .lbaEnc => 0x04#8
  | .peDec => 0x10#8
  | .peEnc => 0x11#8
  | .mbrDec => 0x20#8
  | .mbrEnc => 0x21#8

/-- An arm of R96 for a command that takes neither SLOT nor IGN. -/
def decodePlain (slot : Slot) (ign : Bool) (i : Instr) : Decoded :=
  if slot ≠ 0 then .illegal .slotNotAllowed
  else if ign then .illegal .ignNotAllowed
  else .command i

/-- An arm of R96 for a command that takes SLOT. -/
def decodeSlotted (ign : Bool) (i : Instr) : Decoded :=
  if ign then .illegal .ignNotAllowed else .command i

/-- The arm of R96 for MBR_DEC, which takes IGN. -/
def decodeFlagged (slot : Slot) (i : Instr) : Decoded :=
  if slot ≠ 0 then .illegal .slotNotAllowed else .command i

/-- SLOT = W[9:8] (R90, R92). -/
def slotField (w : Word) : Slot := (w.extractLsb' 8 2).toFin

/-- IGN = W[16] (R90, R93). -/
def ignField (w : Word) : Bool := w.getLsbD 16

/-- The dispatch of R96 on an accepted word. -/
def decode (w : Word) : Decoded :=
  if w.extractLsb' 10 6 ≠ 0#6 ∨ w.extractLsb' 17 15 ≠ 0#15 then .illegal .reservedBit
  else
    match opcodeOfByte (w.extractLsb' 0 8) with
    | none => .illegal .reservedOpcode
    | some .chsDec => decodePlain (slotField w) (ignField w) .chsDec
    | some .chsEnc => decodePlain (slotField w) (ignField w) .chsEnc
    | some .lbaDec => decodePlain (slotField w) (ignField w) .lbaDec
    | some .lbaEnc => decodePlain (slotField w) (ignField w) .lbaEnc
    | some .peDec => decodeSlotted (ignField w) (.peDec (slotField w))
    | some .peEnc => decodeSlotted (ignField w) (.peEnc (slotField w))
    | some .mbrDec => decodeFlagged (slotField w) (.mbrDec (ignField w))
    | some .mbrEnc => decodePlain (slotField w) (ignField w) .mbrEnc

/-- The command word of R90 from its fields, every reserved bit 0. -/
def commandWord (op : Opcode) (slot : Slot) (ign : Bool) : Word :=
  0#15 ++ BitVec.ofBool ign ++ 0#6 ++ BitVec.ofNat 2 slot.val ++ byteOfOpcode op

/-- The command word of a command (R90, R91; the table of R101). -/
def encode : Instr → Word
  | .chsDec => commandWord .chsDec 0 false
  | .chsEnc => commandWord .chsEnc 0 false
  | .lbaDec => commandWord .lbaDec 0 false
  | .lbaEnc => commandWord .lbaEnc 0 false
  | .peDec s => commandWord .peDec s false
  | .peEnc s => commandWord .peEnc s false
  | .mbrDec g => commandWord .mbrDec 0 g
  | .mbrEnc => commandWord .mbrEnc 0 false

/-- The opcode of a command, which fixes its latency (70_reset_and_hazards.md R275). -/
def opcodeOf : Instr → Opcode
  | .chsDec => .chsDec
  | .chsEnc => .chsEnc
  | .lbaDec => .lbaDec
  | .lbaEnc => .lbaEnc
  | .peDec _ => .peDec
  | .peEnc _ => .peEnc
  | .mbrDec _ => .mbrDec
  | .mbrEnc => .mbrEnc

/-- The command whose word has the bits of `w` below `nbits` and 0 above them. A command is exactly
one 32-bit word (R99), so bits beyond 31 name nothing. -/
def decodeTableWord (nbits w : Nat) : Option Instr :=
  if w % 2 ^ nbits < 2 ^ 32 then
    match decode (BitVec.ofNat 32 (w % 2 ^ nbits)) with
    | .command i => some i
    | .illegal _ => none
  else none

end Sys2Proof
end

