-- ==== Sys2Proof/Config.lean ====
section
/-! DEFINITION. The parameters and free values the spec leaves OPEN (00_scope.md R7;
93_implementation_defined.md I2, I3, I4). None has a body: nothing can be proved of a value. -/

namespace Sys2Proof

/-- `LAT(op)`, the latency of a command in cycles (70_reset_and_hazards.md R275: "an OPEN parameter,
an integer number of cycles ≥ 0 per opcode"). Log 4, DEDUCED, unsafe
for a comparison of two latencies of one opcode. -/
opaque Config.lat : Opcode → Nat

/-- `LAT(ILLEGAL)`, the latency of a word that names no command (30_encoding.md R94). Log 4,
DEDUCED, unsafe for a comparison of two such latencies. -/
opaque Config.latIllegal : Nat

/-- `KNOWN_TYPE` at the byte values the spec does not fix (40_type_registry.md R120). Log 5, DEDUCED, safe. -/
opaque Config.knownTypeOpen : Byte → Bool

/-- The n-th word read from an offset other than STATUS while BUSY = 1 (70_reset_and_hazards.md R270:
"A model treats such a read as a free draw, with any value allowed"). Log 3, DESIGN CHOICE, safe. -/
opaque Config.busyRead : Nat → Word

end Sys2Proof
end

