-- ==== Sys2Proof/Machine/State.lean ====
section
/-! DEFINITION. The state of MBRC as plain data (10_state.md R20), its value at reset (R44), and the
reasons a step can stop. INVENTORY.md lists every field with its rule. -/

namespace Sys2Proof.Machine

/-- The SECTOR buffer (10_state.md R21) as the list of its nonzero bytes, keys rising (log 12, DEDUCED, safe). -/
abbrev Memory := List Host.Cell

/-- A CHS address as three unchecked 16-bit registers (10_state.md R32, R37). -/
structure Chs where
  cyl : BitVec 16
  head : BitVec 16
  sect : BitVec 16
  deriving DecidableEq, Repr

/-- The fields that describe the CHS value behind a RANGE result (10_state.md R28). -/
structure RangeInfo where
  /-- RANGE_CYL: cylinder > 1023. -/
  cyl : Bool
  /-- RANGE_HEAD: head > 255. -/
  head : Bool
  /-- RANGE_SECT: sector > 63. -/
  sect : Bool
  /-- RANGE_END: the failing value is an entry's end CHS. -/
  inEnd : Bool
  /-- RANGE_SLOT: the failing slot's index. -/
  slot : Slot
  deriving DecidableEq, Repr

/-- The stored fields of STATUS (10_state.md R24). BUSY is read from `State.inflight` (log 15, DEDUCED, safe). -/
structure Status where
  /-- RESULT, bits [3:0] (R25). A value of 6 to 15 is a fault state (93 I5; log 9, DEDUCED, safe). -/
  result : BitVec 4
  /-- SIG_OK, bit 9 (R27). -/
  sigOk : Bool
  /-- RANGE_CYL, RANGE_HEAD, RANGE_SECT, RANGE_END and RANGE_SLOT, bits [15:10] (R28). -/
  range : RangeInfo
  /-- OVR, bit 31, sticky (R29). -/
  ovr : Bool
  deriving DecidableEq, Repr

/-- One slot register block SLOT[i], without its derived registers (10_state.md R35, R36). -/
structure SlotBlock where
  /-- SLOT_CTRL[0], the slot is present. -/
  valid : Bool
  /-- SLOT_CTRL[1]. -/
  bootable : Bool
  /-- SLOT_CTRL[2], the start CHS is present. -/
  startChsValid : Bool
  /-- SLOT_CTRL[3], the end CHS is present. -/
  endChsValid : Bool
  /-- TYPE, SLOT_CTRL[15:8]. -/
  ptype : Byte
  /-- START_CYL, START_HEAD, START_SECT (R37). -/
  startChs : Chs
  /-- END_CYL, END_HEAD, END_SECT (R37). -/
  endChs : Chs
  /-- START_LBA (R38). -/
  startLba : Word
  /-- SECTOR_COUNT (R38). -/
  sectorCount : Word
  deriving DecidableEq, Repr

/-- The four slot register blocks (10_state.md R35). -/
structure SlotBank where
  slot0 : SlotBlock
  slot1 : SlotBlock
  slot2 : SlotBlock
  slot3 : SlotBlock
  deriving DecidableEq, Repr

/-- A command in flight (10_state.md R42): the accepted word and the remaining latency in cycles. -/
structure InFlight where
  word : Word
  remaining : Nat
  deriving DecidableEq, Repr

/-- One host transaction (20_memory.md R62): a read of offset A, or a write of word D under the
byte-strobe mask S. -/
inductive Txn where
  | read (addr : BitVec 10)
  | write (addr : BitVec 10) (data : Word) (strobes : BitVec 4)
  deriving DecidableEq, Repr

/-- What the host presents in one clock cycle: the reset input (70_reset_and_hazards.md R260) and at
most one transaction (20_memory.md R62). -/
structure PortCycle where
  reset : Bool
  txn : Option Txn
  deriving DecidableEq, Repr

/-- The machine. The last three fields are the model's own (INVENTORY.md, State). -/
structure State where
  /-- SECTOR (R21). -/
  sector : Memory
  /-- CMD: the last accepted command word, whole (R22). -/
  cmd : Word
  /-- STATUS (R24). -/
  status : Status
  /-- LEN[15:0] (R23). -/
  len : BitVec 16
  /-- DISK_SIG (R30). -/
  diskSig : Word
  /-- REC_CTRL.DISK_SIG_VALID (R31). -/
  diskSigValid : Bool
  /-- CHS_CYL, CHS_HEAD, CHS_SECT (R32). -/
  chs : Chs
  /-- CHS_PACKED[23:0] (R32). -/
  chsPacked : BitVec 24
  /-- LBA_VALUE (R34). -/
  lbaValue : Word
  /-- LBA_BYTES (R34). -/
  lbaBytes : Word
  /-- SLOT[0..3] (R35). -/
  slots : SlotBank
  /-- The in-flight command; BUSY = 1 exactly while there is one (R26, R42). -/
  inflight : Option InFlight
  /-- What the host presents in the coming cycles, next first; empty is an idle host (log 1, DESIGN CHOICE, safe). -/
  port : List PortCycle
  /-- The words returned to the host, newest first (log 2, DESIGN CHOICE, safe). -/
  reads : List Word
  /-- How many free values reads while BUSY have drawn (log 3, DESIGN CHOICE, safe). -/
  draws : Nat
  deriving DecidableEq, Repr

/-- Why a step stops. MBRC itself never traps (60_exceptions.md R230). -/
inductive Fault where
  /-- Raised by `step` in a state whose RESULT is 6 to 15, a code "never produced" (10_state.md R25;
  93 I5: "A model whose RESULT is outside 0–5 is in a `fault` state"). Safe: no step reaches such a
  state from one that is not. -/
  | resultNeverProduced
  deriving DecidableEq, Repr

/-- Why an instruction has no meaning. -/
inductive Refusal where
  /-- Raised by an arm of `exec` whose instruction is not modelled yet; there is none left. Safe. -/
  | notModelled (mnemonic : String)
  deriving DecidableEq, Repr

/-- All three CHS registers 0 (R44). -/
def Chs.zero : Chs := { cyl := 0#16, head := 0#16, sect := 0#16 }

/-- All five RANGE fields 0 (R28, R44). -/
def RangeInfo.clear : RangeInfo :=
  { cyl := false, head := false, sect := false, inEnd := false, slot := 0 }

/-- A slot block with every field 0 (R44). -/
def SlotBlock.zero : SlotBlock :=
  { valid := false, bootable := false, startChsValid := false, endChsValid := false,
    ptype := 0#8, startChs := Chs.zero, endChs := Chs.zero, startLba := 0#32, sectorCount := 0#32 }

/-- The machine right after reset (10_state.md R44; 70_reset_and_hazards.md R260): everything 0 but
LEN = 0x200. The model's own fields are empty (DESIGN CHOICE, logs 1, 2, 3). -/
def State.reset : State :=
  { sector := []
    cmd := 0#32
    status := { result := 0#4, sigOk := false, range := RangeInfo.clear, ovr := false }
    len := 0x200#16
    diskSig := 0#32
    diskSigValid := false
    chs := Chs.zero
    chsPacked := 0#24
    lbaValue := 0#32
    lbaBytes := 0#32
    slots := { slot0 := SlotBlock.zero, slot1 := SlotBlock.zero,
               slot2 := SlotBlock.zero, slot3 := SlotBlock.zero }
    inflight := none
    port := []
    reads := []
    draws := 0 }

end Sys2Proof.Machine
end

