-- ==== Sys2Proof/Machine/Ops.lean ====
section
/-! DEFINITION. The shared operations over the sector buffer, the registers and the slot bank, and the
completion of a command, MBRC's counterpart of taking an exception (60_exceptions.md R240). -/

namespace Sys2Proof.Machine

/-! ### The sector buffer -/

/-- What an unlisted byte of SECTOR reads as: its reset contents, 0x00 (10_state.md R21). -/
def blankByte : Byte := 0#8

/-- The size of SECTOR in bytes (00_scope.md R6). -/
def sectorBytes : Nat := 512

/-- The canonical form of a sector buffer: addresses strictly rising, all inside SECTOR, and no listed
byte equal to what an unlisted one reads as. -/
abbrev Memory.wf (m : Memory) : Prop :=
  m.Pairwise (fun c d => c.1 < d.1) ∧ ∀ c ∈ m, c.2 ≠ blankByte ∧ c.1 < sectorBytes

/-- `SECTOR[a]` (00_scope.md R9). -/
def Memory.read : Memory → Nat → Byte
  | [], _ => blankByte
  | (k, v) :: m, a => if k = a then v else Memory.read m a

/-- A listed byte in front of a list, left out when it is blank. -/
def Memory.put (a : Nat) (b : Byte) (m : Memory) : Memory :=
  if b = blankByte then m else (a, b) :: m

/-- `SECTOR[a] <- b` (00_scope.md R9), keeping the canonical form. -/
def Memory.write : Memory → Nat → Byte → Memory
  | [], a, b => Memory.put a b []
  | (k, v) :: m, a, b =>
    if k < a then (k, v) :: Memory.write m a b
    else if k = a then Memory.put a b m
    else Memory.put a b ((k, v) :: m)

/-- The bytes `bs` stored at `a`, `a + 1`, … -/
def Memory.writeBytes : Memory → Nat → List Byte → Memory
  | m, _, [] => m
  | m, a, b :: bs => Memory.writeBytes (m.write a b) (a + 1) bs

/-! ### Little-endian words (20_memory.md R66) -/

/-- `le32(b0, b1, b2, b3)` (00_scope.md R10): `b0` lowest. -/
def le32 (b0 b1 b2 b3 : Byte) : Word := b3 ++ b2 ++ b1 ++ b0

/-- Byte `k` of a word is `v[8k+7:8k]` (42_lba.md R150). -/
def byteOf (v : Word) (k : Nat) : Byte := v.extractLsb' (8 * k) 8

/-- The four bytes of a word in increasing offset (42_lba.md R151). -/
def bytesOf32 (v : Word) : List Byte := [byteOf v 0, byteOf v 1, byteOf v 2, byteOf v 3]

/-- `MemRead(off, 4)` (00_scope.md R9). -/
def Memory.read32 (m : Memory) (off : Nat) : Word :=
  le32 (m.read off) (m.read (off + 1)) (m.read (off + 2)) (m.read (off + 3))

/-- `MemRead(off, 2)` (00_scope.md R9). -/
def Memory.read16 (m : Memory) (off : Nat) : BitVec 16 := m.read (off + 1) ++ m.read off

/-! ### Registers -/

def State.setSector (s : State) (m : Memory) : State := { s with sector := m }
def State.setCmd (s : State) (w : Word) : State := { s with cmd := w }
def State.setStatus (s : State) (st : Status) : State := { s with status := st }
def State.setLen (s : State) (n : BitVec 16) : State := { s with len := n }
def State.setDiskSig (s : State) (w : Word) : State := { s with diskSig := w }
def State.setDiskSigValid (s : State) (b : Bool) : State := { s with diskSigValid := b }
def State.setChs (s : State) (c : Chs) : State := { s with chs := c }
def State.setChsPacked (s : State) (p : BitVec 24) : State := { s with chsPacked := p }
def State.setLbaValue (s : State) (w : Word) : State := { s with lbaValue := w }
def State.setLbaBytes (s : State) (w : Word) : State := { s with lbaBytes := w }
def State.setSlots (s : State) (b : SlotBank) : State := { s with slots := b }
def State.setInflight (s : State) (j : Option InFlight) : State := { s with inflight := j }
def State.setPort (s : State) (p : List PortCycle) : State := { s with port := p }
def State.setReads (s : State) (r : List Word) : State := { s with reads := r }
def State.setDraws (s : State) (n : Nat) : State := { s with draws := n }

/-- STATUS.BUSY: a command is in flight (10_state.md R26). -/
def State.busy (s : State) : Bool := s.inflight.isSome

/-- SLOT[i] (10_state.md R35). -/
def SlotBank.get (b : SlotBank) (i : Slot) : SlotBlock :=
  match i with
  | 0 => b.slot0
  | 1 => b.slot1
  | 2 => b.slot2
  | 3 => b.slot3

/-- `SLOT[i] <- e`. -/
def SlotBank.set (b : SlotBank) (i : Slot) (e : SlotBlock) : SlotBank :=
  match i with
  | 0 => { b with slot0 := e }
  | 1 => { b with slot1 := e }
  | 2 => { b with slot2 := e }
  | 3 => { b with slot3 := e }

/-- SLOT[i] of a state. -/
def State.slot (s : State) (i : Slot) : SlotBlock := s.slots.get i

/-- `SLOT[i] <- e` in a state. -/
def State.setSlot (s : State) (i : Slot) (e : SlotBlock) : State := s.setSlots (s.slots.set i e)

/-! ### Completion (30_encoding.md R95; 60_exceptions.md R240) -/

/-- The outcomes of a command (60_exceptions.md R231) and the reset value NONE (10_state.md R25). -/
inductive ResultCode where
  | none
  | ok
  | short
  | nosig
  | range
  | illegal
  deriving DecidableEq, Repr

/-- The RESULT code of an outcome (10_state.md R25). -/
def ResultCode.code : ResultCode → BitVec 4
  | .none => 0#4
  | .ok => 1#4
  | .short => 2#4
  | .nosig => 3#4
  | .range => 4#4
  | .illegal => 5#4

/-- The completion step of a command, the one place where an outcome is entered (60_exceptions.md
R240): RESULT, SIG_OK and the RANGE fields are written and BUSY is cleared. OVR is kept: "Command
completion never clears OVR" (10_state.md R29). -/
def State.complete (s : State) (r : ResultCode) (sigOk : Bool) (info : RangeInfo) : State :=
  (s.setStatus { result := r.code, sigOk := sigOk, range := info, ovr := s.status.ovr }).setInflight .none

/-- `complete OK` (00_scope.md R9), with SIG_OK = 0 as every command but MBR_DEC writes it
(10_state.md R27) and the RANGE fields 0 (R28). -/
def State.completeOk (s : State) : State := s.complete .ok false RangeInfo.clear

/-- `raise RESULT(info)` (00_scope.md R9): nothing but STATUS is written (10_state.md R33). -/
def State.raise (s : State) (r : ResultCode) (info : RangeInfo) : State := s.complete r false info

/-- A word that names no command completes ILLEGAL, with SIG_OK = 0 and the RANGE fields 0
(30_encoding.md R94). -/
def State.raiseIllegal (s : State) : State := s.raise .illegal RangeInfo.clear

end Sys2Proof.Machine
end

