-- ==== Sys2Proof/Machine/Flags.lean ====
section
/-! DEFINITION. The STATUS word (10_state.md R24), the CHS range test and its cause bits (41_chs.md
R131; 10_state.md R28), and the boot-signature validator (44_mbr.md R205). -/

namespace Sys2Proof.Machine

/-- The STATUS word from its fields (10_state.md R24); reserved bits read as zero. -/
def statusWord (st : Status) (busy : Bool) : Word :=
  BitVec.ofBool st.ovr ++ 0#15 ++ BitVec.ofNat 2 st.range.slot.val ++ BitVec.ofBool st.range.inEnd ++
    BitVec.ofBool st.range.sect ++ BitVec.ofBool st.range.head ++ BitVec.ofBool st.range.cyl ++
    BitVec.ofBool st.sigOk ++ BitVec.ofBool busy ++ 0#4 ++ st.result

/-- The STATUS word of a state, always exact (70_reset_and_hazards.md R270). -/
def State.statusWord (s : State) : Word := Sys2Proof.Machine.statusWord s.status s.busy

/-- A host write of the merged word W to STATUS: bit 31 = 1 clears OVR, every other bit is ignored
(10_state.md R24). W[31] is the old OVR when lane 3 is not strobed (20_memory.md R64; log 8, DEDUCED,
unsafe). -/
def State.writeStatus (s : State) (w : Word) : State :=
  s.setStatus { s.status with ovr := s.status.ovr && !w.getLsbD 31 }

/-- OVR <- 1: a write arrived while BUSY = 1 (10_state.md R29). -/
def State.setOvr (s : State) : State := s.setStatus { s.status with ovr := true }

/-- RESULT holds one of the codes 0 to 5 (10_state.md R25; 93 I5). -/
def State.resultLegal (s : State) : Bool := s.status.result ≤ ResultCode.illegal.code

/-- `chs_in_range(c, h, s)` (41_chs.md R131); sector 0 is accepted (90_conflicts.md C1). -/
def chsInRange (c : Chs) : Bool := c.cyl ≤ 1023#16 && c.head ≤ 255#16 && c.sect ≤ 63#16

/-- The RANGE fields for a failing CHS value (10_state.md R28): all three causes are evaluated. -/
def rangeInfo (c : Chs) (inEnd : Bool) (i : Slot) : RangeInfo :=
  { cyl := 1023#16 < c.cyl, head := 255#16 < c.head, sect := 63#16 < c.sect, inEnd := inEnd, slot := i }

/-- `sig_valid()` (44_mbr.md R205): `MemRead(0x1FE, 2) == 0xAA55`. -/
def sigValid (m : Memory) : Bool := m.read16 0x1FE == 0xAA55#16

end Sys2Proof.Machine
end

