-- ==== Sys2Proof/Machine/Operands.lean ====
section
/-! DEFINITION. The operand forms of the commands: the effective length (10_state.md R23), the slot
offset (30_encoding.md R92), packed CHS (41_chs.md R130), and the two entry-marshalling functions
(43_partition_entry.md R171, R172). -/

namespace Sys2Proof.Machine

/-- `EFFLEN = min(LEN[15:0], 512)` (10_state.md R23). -/
def State.effLen (s : State) : Nat := min s.len.toNat 512

/-- The sector offset of slot i, `0x1BE + 16·i` (30_encoding.md R92). -/
def slotOffset (i : Slot) : Nat := 0x1BE + 16 * i.val

/-- `zext_16` of `chs_unpack(b0, b1, b2)` (00_scope.md R10; 41_chs.md R130). -/
def chsUnpack (b0 b1 b2 : Byte) : Chs :=
  { cyl := (b1.extractLsb' 6 2 ++ b2).setWidth 16
    head := b0.setWidth 16
    sect := (b1.extractLsb' 0 6).setWidth 16 }

/-- Byte 0 of `chs_pack(c, h, s)`: `h[7:0]` (00_scope.md R10). -/
def chsByte0 (c : Chs) : Byte := c.head.extractLsb' 0 8

/-- Byte 1 of `chs_pack(c, h, s)`: `{c[9:8], s[5:0]}`. -/
def chsByte1 (c : Chs) : Byte := c.cyl.extractLsb' 8 2 ++ c.sect.extractLsb' 0 6

/-- Byte 2 of `chs_pack(c, h, s)`: `c[7:0]`. -/
def chsByte2 (c : Chs) : Byte := c.cyl.extractLsb' 0 8

/-- `chs_pack(c, h, s)` in increasing sector offset; used only after the range check. -/
def chsPackBytes (c : Chs) : List Byte := [chsByte0 c, chsByte1 c, chsByte2 c]

/-- The packed triple in the lanes of CHS_PACKED, byte 0 lowest (10_state.md R32). -/
def chsPack24 (c : Chs) : BitVec 24 := chsByte2 c ++ chsByte1 c ++ chsByte0 c

/-- The CHS triple in the lanes of CHS_PACKED (41_chs.md R132). -/
def chsUnpack24 (p : BitVec 24) : Chs :=
  chsUnpack (p.extractLsb' 0 8) (p.extractLsb' 8 8) (p.extractLsb' 16 8)

/-- `entry_decode(e[0..15])` (43_partition_entry.md R171), `e k` being byte k of the entry. Only bit 7
of the attribute byte is kept (R173). -/
def entryDecode (e : Nat → Byte) : SlotBlock :=
  { valid := true
    bootable := (e 0).getLsbD 7
    startChsValid := true
    endChsValid := true
    ptype := e 4
    startChs := chsUnpack (e 1) (e 2) (e 3)
    endChs := chsUnpack (e 5) (e 6) (e 7)
    startLba := le32 (e 8) (e 9) (e 10) (e 11)
    sectorCount := le32 (e 12) (e 13) (e 14) (e 15) }

/-- `entry_decode` of the entry that SECTOR holds at slot i. -/
def Memory.entryAt (m : Memory) (i : Slot) : SlotBlock :=
  entryDecode fun k => m.read (slotOffset i + k)

/-- One CHS field of an entry (43_partition_entry.md R172): 3 zero bytes when absent, with no range
check; otherwise its packed bytes, or the RANGE fields when it is out of range. -/
def chsFieldBytes (present : Bool) (c : Chs) (inEnd : Bool) (i : Slot) : Except RangeInfo (List Byte) :=
  if !present then .ok [0x00#8, 0x00#8, 0x00#8]
  else if chsInRange c then .ok (chsPackBytes c)
  else .error (rangeInfo c inEnd i)

/-- The 16 bytes of a present entry from its two CHS fields (43_partition_entry.md R170, R172). The
attribute byte is 0x80 or 0x00 (R173), and the registry is not consulted (40_type_registry.md R123). -/
def entryLayout (e : SlotBlock) (sc ec : List Byte) : List Byte :=
  [if e.bootable then 0x80#8 else 0x00#8] ++ sc ++ [e.ptype] ++ ec ++
    bytesOf32 e.startLba ++ bytesOf32 e.sectorCount

/-- `entry_bytes(i)` (43_partition_entry.md R172): 16 zero bytes for an absent slot; the start CHS is
checked before the end CHS (60_exceptions.md R238). -/
def entryBytes (e : SlotBlock) (i : Slot) : Except RangeInfo (List Byte) :=
  if !e.valid then .ok (List.replicate 16 0x00#8)
  else
    match chsFieldBytes e.startChsValid e.startChs false i with
    | .error info => .error info
    | .ok sc =>
      match chsFieldBytes e.endChsValid e.endChs true i with
      | .error info => .error info
      | .ok ec => .ok (entryLayout e sc ec)

/-- The 64 bytes of the four slots, or the RANGE fields of the least slot that fails (44_mbr.md R203;
60_exceptions.md R238). -/
def allEntryBytes (b : SlotBank) : Except RangeInfo (List Byte) := do
  let r0 ← entryBytes (b.get 0) 0
  let r1 ← entryBytes (b.get 1) 1
  let r2 ← entryBytes (b.get 2) 2
  let r3 ← entryBytes (b.get 3) 3
  pure (r0 ++ r1 ++ r2 ++ r3)

/-- The disk signature that MBR_ENC writes: 0 when absent (10_state.md R31). -/
def State.encodedSig (s : State) : Word := if s.diskSigValid then s.diskSig else 0#32

/-- The fresh sector of MBR_ENC (44_mbr.md R203): 512 zero bytes, then the disk signature at 0x1B8, the
four entries at 0x1BE and the boot signature 0x55, 0xAA at 0x1FE. -/
def freshSector (sig : Word) (entries : List Byte) : Memory :=
  let blank : Memory := []
  ((blank.writeBytes 0x1B8 (bytesOf32 sig)).writeBytes 0x1BE entries).writeBytes 0x1FE [0x55#8, 0xAA#8]

end Sys2Proof.Machine
end

