-- ==== Sys2Proof/Machine/Chs.lean ====
section
/-! DEFINITION. The CHS address packer/unpacker (41_chs.md). -/

namespace Sys2Proof.Machine

/-- CHS_DEC (41_chs.md R132): any packing is accepted. -/
def execChsDec (s : State) : Host.Outcome State Fault Refusal :=
  .next (s.setChs (chsUnpack24 s.chsPacked)).completeOk

/-- CHS_ENC (41_chs.md R133): a hard failure out of range, never a clamp. -/
def execChsEnc (s : State) : Host.Outcome State Fault Refusal :=
  if chsInRange s.chs then .next (s.setChsPacked (chsPack24 s.chs)).completeOk
  else .next (s.raise .range (rangeInfo s.chs false 0))

end Sys2Proof.Machine
end

