-- ==== Sys2Proof/Machine/Lba.lean ====
section
/-! DEFINITION. The LBA codec (42_lba.md). -/

namespace Sys2Proof.Machine

/-- LBA_DEC (42_lba.md R150): byte k is lane k of LBA_BYTES (10_state.md R34). -/
def execLbaDec (s : State) : Host.Outcome State Fault Refusal :=
  .next (s.setLbaValue (le32 (byteOf s.lbaBytes 0) (byteOf s.lbaBytes 1) (byteOf s.lbaBytes 2)
    (byteOf s.lbaBytes 3))).completeOk

/-- LBA_ENC (42_lba.md R151): `LBA_BYTES <- {v[31:24], v[23:16], v[15:8], v[7:0]}`. -/
def execLbaEnc (s : State) : Host.Outcome State Fault Refusal :=
  .next (s.setLbaBytes (byteOf s.lbaValue 3 ++ byteOf s.lbaValue 2 ++ byteOf s.lbaValue 1 ++
    byteOf s.lbaValue 0)).completeOk

end Sys2Proof.Machine
end

