-- ==== Sys2Proof/Machine/Mbr.lean ====
section
/-! DEFINITION. The MBR sector encoder/decoder (44_mbr.md). -/

namespace Sys2Proof.Machine

/-- The destinations of a successful MBR_DEC (44_mbr.md R202). -/
def State.loadRecord (s : State) : State :=
  ((s.setDiskSig (s.sector.read32 0x1B8)).setDiskSigValid true).setSlots
    { slot0 := s.sector.entryAt 0, slot1 := s.sector.entryAt 1,
      slot2 := s.sector.entryAt 2, slot3 := s.sector.entryAt 3 }

/-- MBR_DEC (44_mbr.md R200): SHORT before NOSIG (60_exceptions.md R238). IGN bypasses the gate, never
the check (44_mbr.md R206). -/
def execMbrDec (ign : Bool) (s : State) : Host.Outcome State Fault Refusal :=
  if s.effLen < 512 then .next (s.raise .short RangeInfo.clear)
  else if !sigValid s.sector && !ign then .next (s.raise .nosig RangeInfo.clear)
  else .next (s.loadRecord.complete .ok (sigValid s.sector) RangeInfo.clear)

/-- MBR_ENC (44_mbr.md R203): all 512 bytes and LEN, or neither. -/
def execMbrEnc (s : State) : Host.Outcome State Fault Refusal :=
  match allEntryBytes s.slots with
  | .error info => .next (s.raise .range info)
  | .ok r => .next ((s.setSector (freshSector s.encodedSig r)).setLen 0x200#16).completeOk

end Sys2Proof.Machine
end

