-- ==== Sys2Proof/Machine/PartitionEntry.lean ====
section
/-! DEFINITION. The partition-entry bitfield marshaller (43_partition_entry.md). -/

namespace Sys2Proof.Machine

/-- PE_DEC s (43_partition_entry.md R175): SHORT when fewer than 16 bytes are available at the slot. -/
def execPeDec (slot : Slot) (s : State) : Host.Outcome State Fault Refusal :=
  if s.effLen < slotOffset slot + 16 then .next (s.raise .short RangeInfo.clear)
  else .next (s.setSlot slot (s.sector.entryAt slot)).completeOk

/-- PE_ENC s (43_partition_entry.md R176): on RANGE no SECTOR byte changes. -/
def execPeEnc (slot : Slot) (s : State) : Host.Outcome State Fault Refusal :=
  match entryBytes (s.slot slot) slot with
  | .error info => .next (s.raise .range info)
  | .ok r => .next (s.setSector (s.sector.writeBytes (slotOffset slot) r)).completeOk

end Sys2Proof.Machine
end

