-- ==== Sys2Proof/Machine/Dispatch.lean ====
section
/-! DEFINITION. The meaning of every command, one arm per row of the opcode table. -/

namespace Sys2Proof.Machine

def exec (i : Instr) (s : State) : Host.Outcome State Fault Refusal :=
  match i with
  | .chsDec => Sys2Proof.Machine.execChsDec s
  | .chsEnc => Sys2Proof.Machine.execChsEnc s
  | .lbaDec => Sys2Proof.Machine.execLbaDec s
  | .lbaEnc => Sys2Proof.Machine.execLbaEnc s
  | .peDec slot => Sys2Proof.Machine.execPeDec slot s
  | .peEnc slot => Sys2Proof.Machine.execPeEnc slot s
  | .mbrDec ign => Sys2Proof.Machine.execMbrDec ign s
  | .mbrEnc => Sys2Proof.Machine.execMbrEnc s

end Sys2Proof.Machine
end

