-- ==== Sys2Proof/Machine/Registry.lean ====
section
/-! DEFINITION. The combinational, read-only values: the partition-type registry (40_type_registry.md
R120, R121), END_LBA and BYTE_COUNT (43_partition_entry.md R178, R179), LBA_BYTE_OFFSET (42_lba.md
R152). They hold no state (10_state.md R20). -/

namespace Sys2Proof.Machine

/-- `KNOWN_TYPE` (40_type_registry.md R120): the six values the spec fixes, and the open parameter at
the other 250 bytes (log 5, DEDUCED, safe). -/
def knownType (b : Byte) : Bool :=
  if b = 0x83#8 ∨ b = 0x82#8 ∨ b = 0xEE#8 ∨ b = 0x07#8 then true
  else if b = 0x99#8 ∨ b = 0x00#8 then false
  else Config.knownTypeOpen b

/-- TYPE_KNOWN of a slot block (40_type_registry.md R121). -/
def SlotBlock.typeKnown (e : SlotBlock) : Bool := knownType e.ptype

/-- END_LBA, exact in 33 bits (43_partition_entry.md R178). -/
def SlotBlock.endLba (e : SlotBlock) : BitVec 33 :=
  if e.sectorCount = 0#32 then e.startLba.setWidth 33
  else e.startLba.setWidth 33 + e.sectorCount.setWidth 33 - 1#33

/-- A sector count in bytes, × 512, exact in 41 bits (42_lba.md R152; 43_partition_entry.md R179). -/
def times512 (v : Word) : BitVec 41 := v.setWidth 41 <<< 9

/-- BYTE_COUNT (43_partition_entry.md R179). -/
def SlotBlock.byteCount (e : SlotBlock) : BitVec 41 := times512 e.sectorCount

/-- LBA_BYTE_OFFSET (42_lba.md R152). -/
def State.lbaByteOffset (s : State) : BitVec 41 := times512 s.lbaValue

end Sys2Proof.Machine
end

