-- ==== Sys2Proof/Machine/Port.lean ====
section
/-! DEFINITION. The host register port: the window map (10_state.md, section 3; R35), reads
(20_memory.md R65) and strobed writes (R64) of every offset. A write to CMD starts a command and is
not here but in Sequencer.lean. -/

namespace Sys2Proof.Machine

/-- The registers of one slot block (10_state.md R35). -/
inductive SlotReg where
  | ctrl
  | startCyl
  | startHead
  | startSect
  | endCyl
  | endHead
  | endSect
  | startLba
  | sectorCount
  | endLbaLo
  | endLbaHi
  | byteCountLo
  | byteCountHi
  | reserved
  deriving DecidableEq, Repr

/-- What one aligned word of the window is (10_state.md, section 3). -/
inductive Target where
  /-- The SECTOR word whose lowest byte is `SECTOR[off]` (20_memory.md R61). -/
  | sector (off : Nat)
  | cmd
  | status
  | len
  | diskSig
  | recCtrl
  | chsCyl
  | chsHead
  | chsSect
  | chsPacked
  | lbaValue
  | lbaBytes
  | lbaByteOffsetLo
  | lbaByteOffsetHi
  | slot (i : Slot) (r : SlotReg)
  /-- Reads as zero, ignores writes (10_state.md R41). -/
  | reserved
  deriving DecidableEq, Repr

/-- The register at a word-aligned offset inside a slot block (10_state.md R35). -/
def slotRegAt (off : Nat) : SlotReg :=
  match off with
  | 0x00 => .ctrl
  | 0x04 => .startCyl
  | 0x08 => .startHead
  | 0x0C => .startSect
  | 0x10 => .endCyl
  | 0x14 => .endHead
  | 0x18 => .endSect
  | 0x1C => .startLba
  | 0x20 => .sectorCount
  | 0x24 => .endLbaLo
  | 0x28 => .endLbaHi
  | 0x2C => .byteCountLo
  | 0x30 => .byteCountHi
  | _ => .reserved

/-- The control, record or operand register at a word-aligned offset from 0x200 to 0x2FF. -/
def controlAt (off : Nat) : Target :=
  match off with
  | 0x200 => .cmd
  | 0x204 => .status
  | 0x208 => .len
  | 0x20C => .diskSig
  | 0x210 => .recCtrl
  | 0x220 => .chsCyl
  | 0x224 => .chsHead
  | 0x228 => .chsSect
  | 0x22C => .chsPacked
  | 0x230 => .lbaValue
  | 0x234 => .lbaBytes
  | 0x238 => .lbaByteOffsetLo
  | 0x23C => .lbaByteOffsetHi
  | _ => .reserved

/-- The slot block that bits [7:6] of an offset from 0x300 select: block i is at `0x300 + 0x40·i`
(10_state.md R35). -/
def slotAt (a : BitVec 10) : Slot := (a.extractLsb' 6 2).toFin

/-- `A & 0x3FC`: the port ignores A[1:0] (20_memory.md R63). -/
def alignedOffset (a : BitVec 10) : Nat := (a &&& 0x3FC#10).toNat

/-- What a transaction at offset A addresses (20_memory.md R60, R63). -/
def target (a : BitVec 10) : Target :=
  if alignedOffset a < 0x200 then .sector (alignedOffset a)
  else if alignedOffset a < 0x300 then controlAt (alignedOffset a)
  else .slot (slotAt a) (slotRegAt (alignedOffset a % 0x40))

/-- SLOT_CTRL (10_state.md R36). -/
def SlotBlock.ctrlWord (e : SlotBlock) : Word :=
  0#15 ++ BitVec.ofBool e.typeKnown ++ e.ptype ++ 0#4 ++ BitVec.ofBool e.endChsValid ++
    BitVec.ofBool e.startChsValid ++ BitVec.ofBool e.bootable ++ BitVec.ofBool e.valid

/-- The word a register of a slot block reads as (10_state.md R35, R36, R39, R40). -/
def SlotBlock.readReg (e : SlotBlock) : SlotReg → Word
  | .ctrl => e.ctrlWord
  | .startCyl => e.startChs.cyl.setWidth 32
  | .startHead => e.startChs.head.setWidth 32
  | .startSect => e.startChs.sect.setWidth 32
  | .endCyl => e.endChs.cyl.setWidth 32
  | .endHead => e.endChs.head.setWidth 32
  | .endSect => e.endChs.sect.setWidth 32
  | .startLba => e.startLba
  | .sectorCount => e.sectorCount
  | .endLbaLo => e.endLba.extractLsb' 0 32
  | .endLbaHi => (e.endLba.extractLsb' 32 1).setWidth 32
  | .byteCountLo => e.byteCount.extractLsb' 0 32
  | .byteCountHi => (e.byteCount.extractLsb' 32 9).setWidth 32
  | .reserved => 0#32

/-- The word a target reads as in the current state (20_memory.md R65). -/
def State.readTarget (s : State) : Target → Word
  | .sector off => s.sector.read32 off
  | .cmd => s.cmd
  | .status => s.statusWord
  | .len => s.len.setWidth 32
  | .diskSig => s.diskSig
  | .recCtrl => (BitVec.ofBool s.diskSigValid).setWidth 32
  | .chsCyl => s.chs.cyl.setWidth 32
  | .chsHead => s.chs.head.setWidth 32
  | .chsSect => s.chs.sect.setWidth 32
  | .chsPacked => s.chsPacked.setWidth 32
  | .lbaValue => s.lbaValue
  | .lbaBytes => s.lbaBytes
  | .lbaByteOffsetLo => s.lbaByteOffset.extractLsb' 0 32
  | .lbaByteOffsetHi => (s.lbaByteOffset.extractLsb' 32 9).setWidth 32
  | .slot i r => (s.slot i).readReg r
  | .reserved => 0#32

/-- The word at offset A (20_memory.md R65), as a read while BUSY = 0 returns it. -/
def State.readWindow (s : State) (a : BitVec 10) : Word := s.readTarget (target a)

/-- Byte lane j of `merge(old, D, S)` (20_memory.md R64). -/
def mergeLane (old d : Word) (strobes : BitVec 4) (j : Nat) : Byte :=
  if strobes.getLsbD j then byteOf d j else byteOf old j

/-- `W = merge(old, D, S)` (20_memory.md R64). -/
def merge (old d : Word) (strobes : BitVec 4) : Word :=
  le32 (mergeLane old d strobes 0) (mergeLane old d strobes 1) (mergeLane old d strobes 2)
    (mergeLane old d strobes 3)

/-- `SECTOR[off+j] <- D[8j+7:8j]` if S[j] = 1 (20_memory.md R64). -/
def Memory.writeLane (m : Memory) (off : Nat) (d : Word) (strobes : BitVec 4) (j : Nat) : Memory :=
  if strobes.getLsbD j then m.write (off + j) (byteOf d j) else m

/-- A strobed write of a SECTOR word: unstrobed bytes keep their values (20_memory.md R64). -/
def Memory.writeStrobed (m : Memory) (off : Nat) (d : Word) (strobes : BitVec 4) : Memory :=
  (((m.writeLane off d strobes 0).writeLane off d strobes 1).writeLane off d strobes 2).writeLane
    off d strobes 3

/-- The merged word W written to a register of a slot block: reserved and read-only bits ignore it
(10_state.md R35, R36, R39, R40). -/
def SlotBlock.writeReg (e : SlotBlock) (w : Word) : SlotReg → SlotBlock
  | .ctrl =>
    { e with
      valid := w.getLsbD 0
      bootable := w.getLsbD 1
      startChsValid := w.getLsbD 2
      endChsValid := w.getLsbD 3
      ptype := w.extractLsb' 8 8 }
  | .startCyl => { e with startChs := { e.startChs with cyl := w.setWidth 16 } }
  | .startHead => { e with startChs := { e.startChs with head := w.setWidth 16 } }
  | .startSect => { e with startChs := { e.startChs with sect := w.setWidth 16 } }
  | .endCyl => { e with endChs := { e.endChs with cyl := w.setWidth 16 } }
  | .endHead => { e with endChs := { e.endChs with head := w.setWidth 16 } }
  | .endSect => { e with endChs := { e.endChs with sect := w.setWidth 16 } }
  | .startLba => { e with startLba := w }
  | .sectorCount => { e with sectorCount := w }
  | .endLbaLo => e
  | .endLbaHi => e
  | .byteCountLo => e
  | .byteCountHi => e
  | .reserved => e

/-- The merged word W written to a register under its access rules (20_memory.md R64; 10_state.md
R23–R41). SECTOR takes its strobed bytes instead (`State.writeWindow`), and CMD is written by
acceptance (Sequencer.lean). -/
def State.writeRegister (s : State) (w : Word) : Target → State
  | .sector _ => s
  | .cmd => s
  | .status => s.writeStatus w
  | .len => s.setLen (w.setWidth 16)
  | .diskSig => s.setDiskSig w
  | .recCtrl => s.setDiskSigValid (w.getLsbD 0)
  | .chsCyl => s.setChs { s.chs with cyl := w.setWidth 16 }
  | .chsHead => s.setChs { s.chs with head := w.setWidth 16 }
  | .chsSect => s.setChs { s.chs with sect := w.setWidth 16 }
  | .chsPacked => s.setChsPacked (w.setWidth 24)
  | .lbaValue => s.setLbaValue w
  | .lbaBytes => s.setLbaBytes w
  | .lbaByteOffsetLo => s
  | .lbaByteOffsetHi => s
  | .slot i r => s.setSlot i ((s.slot i).writeReg w r)
  | .reserved => s

/-- A host write to any offset but CMD while BUSY = 0, with S ≠ 0 (20_memory.md R64). -/
def State.writeWindow (s : State) (t : Target) (d : Word) (strobes : BitVec 4) : State :=
  match t with
  | .sector off => s.setSector (s.sector.writeStrobed off d strobes)
  | t => s.writeRegister (merge (s.readTarget t) d strobes) t

/-- The port returns a word to the host (log 2, DESIGN CHOICE, safe). -/
def State.respond (s : State) (w : Word) : State := s.setReads (w :: s.reads)

/-- The port returns an unspecified word (70_reset_and_hazards.md R270; log 3, DESIGN CHOICE, safe). -/
def State.respondDraw (s : State) : State :=
  (s.respond (Config.busyRead s.draws)).setDraws (s.draws + 1)

end Sys2Proof.Machine
end

