-- ==== Sys2Proof/Machine/Sequencer.lean ====
section
/-! DEFINITION. The command sequencer: acceptance, execution and completion (30_encoding.md R95), the
host's transaction of a cycle in and out of BUSY (20_memory.md R70), and reset (70_reset_and_hazards.md
R260). One step is one clock cycle (log 1, DESIGN CHOICE, safe). -/

namespace Sys2Proof.Machine

/-- A cycle in which the host presents nothing. -/
def PortCycle.idle : PortCycle := { reset := false, txn := none }

/-- What the host presents in this cycle. -/
def State.presented (s : State) : PortCycle := s.port.headD PortCycle.idle

/-- The state with this cycle's presentation taken from the port. -/
def State.popPort (s : State) : State := s.setPort s.port.tail

/-- A cycle with reset asserted: every piece of the spec's state takes its reset value, an in-flight
command is abandoned (70_reset_and_hazards.md R260, R261). The model's own fields are not MBRC's and
stay (log 10, DESIGN CHOICE, safe). -/
def State.hardReset (s : State) : State :=
  ((State.reset.setPort s.port).setReads s.reads).setDraws s.draws

/-- `LAT` of a command word (70_reset_and_hazards.md R275; 30_encoding.md R94). -/
def latency (w : Word) : Nat :=
  match decode w with
  | .command i => Config.lat (opcodeOf i)
  | .illegal _ => Config.latIllegal

/-- The execution and completion of an accepted word: its command's rule, or ILLEGAL (30_encoding.md
R94, R96). -/
def runWord (w : Word) (s : State) : Host.Outcome State Fault Refusal :=
  match decode w with
  | .command i => exec i s
  | .illegal _ => .next s.raiseIllegal

/-- The state just after a CMD write of the merged word W is accepted (30_encoding.md R95): CMD holds
W and the command is in flight for its latency. -/
def State.accept (s : State) (w : Word) : State :=
  (s.setCmd w).setInflight (some { word := w, remaining := latency w })

/-- A CMD write accepted while BUSY = 0 (30_encoding.md R95). With `LAT(op) = 0` the command completes
in this same cycle (10_state.md R26). -/
def startCommand (w : Word) (s : State) : Host.Outcome State Fault Refusal :=
  if latency w = 0 then runWord w (s.setCmd w) else .next (s.accept w)

/-- The host's transaction in a cycle with BUSY = 0. A write with S = 0 has no effect at all
(20_memory.md R64). -/
def readyCycle (t : Option Txn) (s : State) : Host.Outcome State Fault Refusal :=
  match t with
  | none => .next s
  | some (.read a) => .next (s.respond (s.readWindow a))
  | some (.write a d strobes) =>
    if strobes = 0#4 then .next s
    else if target a = .cmd then startCommand (merge s.cmd d strobes) s
    else .next (s.writeWindow (target a) d strobes)

/-- The host's transaction in a cycle with BUSY = 1: STATUS reads are exact, other reads are draws
(70_reset_and_hazards.md R270), and a write is dropped and sets OVR (10_state.md R29). -/
def busyTransaction (t : Option Txn) (s : State) : State :=
  match t with
  | none => s
  | some (.read a) => if target a = .status then s.respond s.statusWord else s.respondDraw
  | some (.write _ _ strobes) => if strobes = 0#4 then s else s.setOvr

/-- The sequencer in a cycle with BUSY = 1: one cycle of latency passes, and in the last one the
command completes (30_encoding.md R95), evaluated on the registers as they stand (log 6, DEDUCED, safe). -/
def advance (j : InFlight) (s : State) : Host.Outcome State Fault Refusal :=
  if j.remaining ≤ 1 then runWord j.word s
  else .next (s.setInflight (some { j with remaining := j.remaining - 1 }))

/-- One clock cycle: reset has priority over everything; otherwise the host's transaction takes effect
and then the sequencer advances (log 7, DESIGN CHOICE, safe). -/
def cycle (s : State) : Host.Outcome State Fault Refusal :=
  if s.presented.reset then .next s.popPort.hardReset
  else
    match s.inflight with
    | none => readyCycle s.presented.txn s.popPort
    | some j => advance j (busyTransaction s.presented.txn s.popPort)

/-- The state whose next cycle completes the word w: the sequencer holds it as the accepted command,
in the last cycle of its latency, CMD holds it, and the host presents nothing (log 11, DESIGN CHOICE, safe). -/
def State.lastCycleOf (s : State) (w : Word) : State :=
  ((s.setCmd w).setInflight (some { word := w, remaining := 1 })).setPort []

end Sys2Proof.Machine
end

