-- ==== Sys2Proof/Machine/Step.lean ====
section
/-! DEFINITION. One step of the machine, one clock cycle (log 1, DESIGN CHOICE, safe), and where a step takes its command
word from (log 11, DESIGN CHOICE, safe). -/

namespace Sys2Proof.Machine

/-- One clock cycle of MBRC. A state whose RESULT is 6 to 15 is a fault state (93 I5; log 9, DEDUCED, safe). -/
def step (s : State) : Host.Outcome State Fault Refusal :=
  if s.resultLegal then cycle s else .fault .resultNeverProduced

/-- The state whose next step runs the command word with the bits of `w` below `nbits`: it is the word
the sequencer holds (log 11, DESIGN CHOICE, safe). -/
def State.withFetchWord (s : State) (nbits w : Nat) : State :=
  s.lastCycleOf (BitVec.ofNat 32 (w % 2 ^ nbits))

end Sys2Proof.Machine
end

