-- ==== Sys2Proof/Machine/HostProgram.lean ====
section
/-! DEFINITION. The host's side of the port as the spec writes host programs (30_encoding.md R100, R101):
each statement is the transactions it expands to, and WAIT is the host's polling loop (70_reset_and_hazards.md
R271). Nothing here belongs to MBRC; it drives `step`. -/

namespace Sys2Proof.Machine

/-- One statement of a host program (30_encoding.md R100). -/
inductive HostStatement where
  /-- `WR off, value`. -/
  | wr (off : BitVec 10) (value : Word)
  /-- `WRB off, value, S`. -/
  | wrb (off : BitVec 10) (value : Word) (strobes : BitVec 4)
  /-- `RD off`. -/
  | rd (off : BitVec 10)
  /-- `WAIT`. -/
  | wait
  /-- A command mnemonic with its operands. -/
  | command (i : Instr)
  deriving DecidableEq, Repr

/-- One cycle in which the host presents this transaction. -/
def hostTransaction (t : Txn) (s : State) : Host.Outcome State Fault Refusal :=
  step (s.setPort ({ reset := false, txn := some t } :: s.port))

/-- The word the host got from its last read. -/
def State.lastRead (s : State) : Word := s.reads.headD 0#32

/-- `WAIT` (30_encoding.md R101): `L: RD 0x204 -> t; if t[8] == 1 goto L`, given up after `fuel` reads
(log 16, DESIGN CHOICE, safe). -/
def waitLoop : Nat → State → Host.Outcome State Fault Refusal
  | 0, s => .next s
  | fuel + 1, s =>
    match hostTransaction (.read 0x204#10) s with
    | .next t => if t.lastRead.getLsbD 8 then waitLoop fuel t else .next t
    | .fault f => .fault f
    | .refused r => .refused r

/-- One statement, by the expansions of 30_encoding.md R101; a command is its CMD write and WAIT. -/
def runStatement (fuel : Nat) (h : HostStatement) (s : State) : Host.Outcome State Fault Refusal :=
  match h with
  | .wr off value => hostTransaction (.write off value 0b1111#4) s
  | .wrb off value strobes => hostTransaction (.write off value strobes) s
  | .rd off => hostTransaction (.read off) s
  | .wait => waitLoop fuel s
  | .command i =>
    match hostTransaction (.write 0x200#10 (encode i) 0b1111#4) s with
    | .next t => waitLoop fuel t
    | .fault f => .fault f
    | .refused r => .refused r

/-- A host program, statement by statement. -/
def runProgram (fuel : Nat) : List HostStatement → State → Host.Outcome State Fault Refusal
  | [], s => .next s
  | h :: hs, s =>
    match runStatement fuel h s with
    | .next t => runProgram fuel hs t
    | .fault f => .fault f
    | .refused r => .refused r

end Sys2Proof.Machine
end

