-- ==== Sys2Proof/Safety.lean ====
section
/-! DEFINITION. The terms in which claims about the machine are stated: the invariant of a running
machine, what a completed command reports, and the sector format written as arithmetic on numbers,
apart from the bit operations that the meanings use. -/

namespace Sys2Proof.Machine

/-! ### The invariant -/

/-- What holds of STATUS between steps: RESULT is a code that is produced (10_state.md R25); the RANGE
fields are 0 unless RESULT = RANGE, and then name at least one cause (R28); SIG_OK = 1 only beside OK
(R27; 44_mbr.md R200). -/
abbrev Status.Consistent (st : Status) : Prop :=
  st.result.toNat ≤ 5 ∧
  (st.result ≠ 4#4 → st.range = RangeInfo.clear) ∧
  (st.result = 4#4 → st.range.cyl = true ∨ st.range.head = true ∨ st.range.sect = true) ∧
  (st.sigOk = true → st.result = 1#4)

/-- The invariant of a running machine: SECTOR keeps its canonical form, STATUS is consistent, and the
in-flight command is the word that CMD holds, with latency left (10_state.md R22, R42). -/
abbrev State.Inv (s : State) : Prop :=
  s.sector.wf ∧ s.status.Consistent ∧ ∀ j ∈ s.inflight, j.word = s.cmd ∧ 1 ≤ j.remaining

/-- A step that goes on: neither a fault nor a refusal. MBRC never traps (60_exceptions.md R230). -/
abbrev State.Steps (s : State) : Prop := ∃ t, step s = .next t

/-! ### What a completed command reports -/

/-- The command completed from `s` into `t` with this RESULT code, SIG_OK and RANGE fields; BUSY is
clear and OVR is as it was (30_encoding.md R95; 10_state.md R25–R29). -/
abbrev Reports (s t : State) (code : Nat) (sigOk : Bool) (range : RangeInfo) : Prop :=
  t.status.result.toNat = code ∧ t.status.sigOk = sigOk ∧ t.status.range = range ∧
  t.status.ovr = s.status.ovr ∧ t.busy = false

/-- Every byte of SECTOR reads as before. -/
abbrev SameSector (s t : State) : Prop := ∀ a, t.sector.read a = s.sector.read a

/-! ### The format as arithmetic -/

/-- `chs_in_range` (41_chs.md R131). -/
abbrev Chs.InRange (c : Chs) : Prop := c.cyl.toNat ≤ 1023 ∧ c.head.toNat ≤ 255 ∧ c.sect.toNat ≤ 63

/-- The RANGE fields for a failing CHS value (10_state.md R28). -/
def Chs.causes (c : Chs) (inEnd : Bool) (i : Slot) : RangeInfo :=
  { cyl := decide (1023 < c.cyl.toNat), head := decide (255 < c.head.toNat),
    sect := decide (63 < c.sect.toNat), inEnd := inEnd, slot := i }

/-- The CHS value that three packed bytes hold (41_chs.md R130). -/
abbrev Chs.UnpackedFrom (c : Chs) (b0 b1 b2 : Byte) : Prop :=
  c.head.toNat = b0.toNat ∧ c.sect.toNat = b1.toNat % 64 ∧ c.cyl.toNat = b1.toNat / 64 * 256 + b2.toNat

/-- Byte k of the packed form of an in-range CHS value (41_chs.md R130). -/
def Chs.packedByte (c : Chs) (k : Nat) : Nat :=
  match k with
  | 0 => c.head.toNat
  | 1 => c.sect.toNat + 64 * (c.cyl.toNat / 256)
  | _ => c.cyl.toNat % 256

/-- The number that four little-endian bytes hold (20_memory.md R66). -/
def leNumber (b0 b1 b2 b3 : Byte) : Nat :=
  b0.toNat + 2 ^ 8 * b1.toNat + 2 ^ 16 * b2.toNat + 2 ^ 24 * b3.toNat

/-- Byte k of a 32-bit number, little-endian (42_lba.md R150). -/
def leByte (v : Word) (k : Nat) : Nat := v.toNat / 2 ^ (8 * k) % 256

/-- A slot block holds what `entry_decode` gives of the 16 bytes `e 0` to `e 15` (43_partition_entry.md
R171), field by field. -/
abbrev SlotBlock.DecodedFrom (b : SlotBlock) (e : Nat → Byte) : Prop :=
  b.valid = true ∧ b.bootable = decide (128 ≤ (e 0).toNat) ∧
  b.startChsValid = true ∧ b.endChsValid = true ∧ b.ptype = e 4 ∧
  b.startChs.UnpackedFrom (e 1) (e 2) (e 3) ∧ b.endChs.UnpackedFrom (e 5) (e 6) (e 7) ∧
  b.startLba.toNat = leNumber (e 8) (e 9) (e 10) (e 11) ∧
  b.sectorCount.toNat = leNumber (e 12) (e 13) (e 14) (e 15)

/-- `entry_bytes` of this block does not answer RANGE (43_partition_entry.md R172). -/
abbrev SlotBlock.Encodable (b : SlotBlock) : Prop :=
  b.valid = true →
    (b.startChsValid = true → b.startChs.InRange) ∧ (b.endChsValid = true → b.endChs.InRange)

/-- The RANGE fields of a block that is not encodable: the start CHS is reported before the end CHS
(43_partition_entry.md R172; 60_exceptions.md R238). -/
def SlotBlock.causes (b : SlotBlock) (i : Slot) : RangeInfo :=
  if b.startChsValid = true ∧ ¬ b.startChs.InRange then b.startChs.causes false i
  else b.endChs.causes true i

/-- Byte k of the entry of an encodable block, by the table of 43_partition_entry.md R170 and the
zero-fill of R172. -/
def SlotBlock.entryByte (b : SlotBlock) (k : Nat) : Nat :=
  if b.valid = false then 0
  else if k = 0 then (if b.bootable then 0x80 else 0x00)
  else if k < 4 then (if b.startChsValid then b.startChs.packedByte (k - 1) else 0)
  else if k = 4 then b.ptype.toNat
  else if k < 8 then (if b.endChsValid then b.endChs.packedByte (k - 5) else 0)
  else if k < 12 then leByte b.startLba (k - 8)
  else leByte b.sectorCount (k - 12)

/-- The sector offset of slot i, one of "{0x1BE, 0x1CE, 0x1DE, 0x1EE}" (30_encoding.md R92). -/
def entryOffset (i : Slot) : Nat :=
  match i with
  | 0 => 0x1BE
  | 1 => 0x1CE
  | 2 => 0x1DE
  | 3 => 0x1EE

/-- The boot signature is present (44_mbr.md R205). -/
abbrev State.Signed (s : State) : Prop :=
  s.sector.read 0x1FE = 0x55#8 ∧ s.sector.read 0x1FF = 0xAA#8

/-- What a block becomes when absent values come back as present zeros (43_partition_entry.md R177;
90_conflicts.md C3). -/
def SlotBlock.normalised (b : SlotBlock) : SlotBlock :=
  if b.valid = false then
    { SlotBlock.zero with valid := true, startChsValid := true, endChsValid := true }
  else
    { b with
      startChsValid := true
      endChsValid := true
      startChs := if b.startChsValid then b.startChs else Chs.zero
      endChs := if b.endChsValid then b.endChs else Chs.zero }

/-! ### The host port -/

/-- The next cycle presents this transaction, without reset, and the later ones `rest`. -/
abbrev State.Presents (s : State) (t : Option Txn) (rest : List PortCycle) : Prop :=
  s.port = { reset := false, txn := t } :: rest

/-- The same state with an idle host in the next cycle. -/
def State.withIdleCycle (s : State) : State := s.setPort (PortCycle.idle :: s.port.tail)

/-- The host presents a write with a strobe set in this cycle (20_memory.md R64). -/
def PortCycle.strobedWrite (c : PortCycle) : Bool :=
  match c.txn with
  | some (.write _ _ strobes) => strobes ≠ 0#4
  | some (.read _) => false
  | none => false

/-- The bits of a register that a host write stores (10_state.md, section 3; R23, R30–R32, R34–R38).
CMD, STATUS and SECTOR have rules of their own. -/
def writableBits : Target → Word
  | .len | .chsCyl | .chsHead | .chsSect => 0x0000FFFF#32
  | .diskSig | .lbaValue | .lbaBytes => 0xFFFFFFFF#32
  | .recCtrl => 0x00000001#32
  | .chsPacked => 0x00FFFFFF#32
  | .slot _ .ctrl => 0x0000FF0F#32
  | .slot _ .startCyl | .slot _ .startHead | .slot _ .startSect => 0x0000FFFF#32
  | .slot _ .endCyl | .slot _ .endHead | .slot _ .endSect => 0x0000FFFF#32
  | .slot _ .startLba | .slot _ .sectorCount => 0xFFFFFFFF#32
  | .slot _ .endLbaLo | .slot _ .endLbaHi | .slot _ .byteCountLo | .slot _ .byteCountHi => 0#32
  | .slot _ .reserved => 0#32
  | .lbaByteOffsetLo | .lbaByteOffsetHi | .reserved => 0#32
  | .cmd | .status | .sector _ => 0#32

/-- The word holds state of its own, apart from CMD, STATUS and SECTOR: not derived, not reserved. -/
def storesBits (t : Target) : Bool := writableBits t ≠ 0#32

/-- Every host write with a strobe set at offset A, presented in this state, stores the merged word
`W = merge(old, D, S)` as `store W` says (20_memory.md R64). -/
abbrev State.WriteStores (s : State) (a : BitVec 10) (store : Word → State) : Prop :=
  ∀ (d : Word) (m : BitVec 4), m ≠ 0#4 →
    hostTransaction (.write a d m) s = .next (store (merge (s.readWindow a) d m))

/-- The window offset of a register of slot block i (10_state.md R35). -/
abbrev slotWindow (i : Slot) (off : Nat) : BitVec 10 := BitVec.ofNat 10 (0x300 + 0x40 * i.val + off)

/-- The state with everything blanked that host traffic during BUSY may change: OVR and the model's own
port bookkeeping (10_state.md R29; 70_reset_and_hazards.md R270). -/
def State.hideTraffic (s : State) : State :=
  { s with status := { s.status with ovr := false }, port := [], reads := [], draws := 0 }

end Sys2Proof.Machine
end

