-- ==== Sys2Proof/Certificates/Slice0/Obligations.lean ====
section
/-! DEFINITION. The statements for the provers. Each docstring names the rule of spec/ it rests on. A frame
is written as an equation: `t = { s with … }` says that every field not named is as in `s`. -/

open Sys2Proof Sys2Proof.Machine

/-! ### Command words -/

/-- The command words of the pseudo-instruction table (30_encoding.md R101) decode to their commands, for
every slot index. -/
def Obligations.PseudoInstructionWordsDecode : Prop :=
  decode 0x00000001#32 = .command .chsDec ∧
  decode 0x00000002#32 = .command .chsEnc ∧
  decode 0x00000003#32 = .command .lbaDec ∧
  decode 0x00000004#32 = .command .lbaEnc ∧
  (∀ s : Slot, decode (0x00000010#32 ||| (BitVec.ofNat 32 s.val <<< 8)) = .command (.peDec s)) ∧
  (∀ s : Slot, decode (0x00000011#32 ||| (BitVec.ofNat 32 s.val <<< 8)) = .command (.peEnc s)) ∧
  decode 0x00000020#32 = .command (.mbrDec false) ∧
  decode 0x00010020#32 = .command (.mbrDec true) ∧
  decode 0x00000021#32 = .command .mbrEnc

/-- Decoding an encoded command gives it back, for every operand (30_encoding.md R90–R93). -/
def Obligations.DecodeUndoesEncode : Prop := ∀ i : Instr, decode (encode i) = .command i

/-- Every command has exactly one word: a word that decodes to a command is that command's encoding
(30_encoding.md R90, R91, R99). -/
def Obligations.EncodeUndoesDecode : Prop :=
  ∀ (w : Word) (i : Instr), decode w = .command i → encode i = w

/-- The dispatch of R96 names a command exactly for the words that none of R94 (a) to (d) makes
ILLEGAL. -/
def Obligations.DecodeAcceptsExactlyWellFormedWords : Prop :=
  ∀ w : Word, (∃ i, decode w = .command i) ↔ CommandWord.wellFormed w = true

/-- A word of R94 completes ILLEGAL and writes nothing but STATUS (30_encoding.md R98; 60_exceptions.md
R236). -/
def Obligations.IllegalWordWritesStatusOnly : Prop :=
  ∀ (w : Word) (s : State), CommandWord.wellFormed w = false →
    ∃ t, runWord w s = .next t ∧ Reports s t 5 false RangeInfo.clear ∧
      t = { s with status := t.status, inflight := none }

/-! ### Outcomes -/

/-- Every word completes, with an outcome of R231 and only one its command can raise: SHORT from PE_DEC
and MBR_DEC, NOSIG from MBR_DEC with IGN = 0, RANGE from CHS_ENC, PE_ENC and MBR_ENC, ILLEGAL exactly
from a word that names no command (60_exceptions.md R230, R231). -/
def Obligations.OutcomeTableIsComplete : Prop :=
  ∀ (w : Word) (s : State), ∃ t, runWord w s = .next t ∧ t.busy = false ∧
    1 ≤ t.status.result.toNat ∧ t.status.result.toNat ≤ 5 ∧
    (t.status.result = 2#4 →
      (∃ i, decode w = .command (.peDec i)) ∨ ∃ g, decode w = .command (.mbrDec g)) ∧
    (t.status.result = 3#4 → decode w = .command (.mbrDec false)) ∧
    (t.status.result = 4#4 →
      decode w = .command .chsEnc ∨ (∃ i, decode w = .command (.peEnc i)) ∨ decode w = .command .mbrEnc) ∧
    (t.status.result = 5#4 ↔ CommandWord.wellFormed w = false)

/-- "A command that completes with a result other than OK writes STATUS only" (10_state.md R33), BUSY
being part of STATUS, and CMD holding the accepted word. -/
def Obligations.FailedCommandWritesStatusOnly : Prop :=
  ∀ (w : Word) (s t : State), runWord w { s with cmd := w } = .next t → t.status.result ≠ 1#4 →
    t = { s with cmd := w, status := t.status, inflight := none }

/-! ### CHS and LBA codecs -/

/-- CHS_DEC (41_chs.md R132): its word, its result, in range for every packed value, its flags, its frame;
CHS_PACKED has no bits above 23. -/
def Obligations.ChsDecUnpacks : Prop :=
  decode 0x00000001#32 = .command .chsDec ∧
  ∀ s : State, ∃ t, exec .chsDec s = .next t ∧
    t.chs.head.toNat = s.chsPacked.toNat % 2 ^ 8 ∧
    t.chs.sect.toNat = s.chsPacked.toNat / 2 ^ 8 % 2 ^ 6 ∧
    t.chs.cyl.toNat = s.chsPacked.toNat / 2 ^ 14 % 2 ^ 2 * 2 ^ 8 + s.chsPacked.toNat / 2 ^ 16 ∧
    t.chs.InRange ∧ (s.readWindow 0x22C#10).toNat = s.chsPacked.toNat ∧
    Reports s t 1 false RangeInfo.clear ∧
    t = { s with chs := t.chs, status := t.status, inflight := none }

/-- CHS_ENC (41_chs.md R133): packs an in-range value, and answers RANGE with all causes of one that is
not, never a clamp. -/
def Obligations.ChsEncPacksOrReportsRange : Prop :=
  decode 0x00000002#32 = .command .chsEnc ∧
  ∀ s : State,
    (s.chs.InRange → ∃ t, exec .chsEnc s = .next t ∧
      t.chsPacked.toNat = s.chs.head.toNat +
        2 ^ 8 * (s.chs.sect.toNat + 2 ^ 6 * (s.chs.cyl.toNat / 2 ^ 8)) +
        2 ^ 16 * (s.chs.cyl.toNat % 2 ^ 8) ∧
      Reports s t 1 false RangeInfo.clear ∧
      t = { s with chsPacked := t.chsPacked, status := t.status, inflight := none }) ∧
    (¬ s.chs.InRange → ∃ t, exec .chsEnc s = .next t ∧
      Reports s t 4 false
        { cyl := decide (1023 < s.chs.cyl.toNat), head := decide (255 < s.chs.head.toNat),
          sect := decide (63 < s.chs.sect.toNat), inEnd := false, slot := 0 } ∧
      t = { s with status := t.status, inflight := none })

/-- Encode, then decode from any state that holds the packed value: the triple is restored (41_chs.md
R134). -/
def Obligations.ChsEncodeThenDecode : Prop :=
  ∀ s : State, s.chs.InRange → ∃ t, exec .chsEnc s = .next t ∧
    ∀ t' : State, t'.chsPacked = t.chsPacked → ∃ u, exec .chsDec t' = .next u ∧ u.chs = s.chs

/-- Decode, then encode from any state that holds the triple: OK, and the packed value is restored
(41_chs.md R135). -/
def Obligations.ChsDecodeThenEncode : Prop :=
  ∀ s : State, ∃ t, exec .chsDec s = .next t ∧
    ∀ t' : State, t'.chs = t.chs →
      ∃ u, exec .chsEnc t' = .next u ∧ u.status.result = 1#4 ∧ u.chsPacked = s.chsPacked

/-- LBA_DEC (42_lba.md R150): byte k of LBA_VALUE is lane k of LBA_BYTES. -/
def Obligations.LbaDecReadsLittleEndian : Prop :=
  decode 0x00000003#32 = .command .lbaDec ∧
  ∀ s : State, ∃ t, exec .lbaDec s = .next t ∧
    t.lbaValue.toNat = leByte s.lbaBytes 0 + 2 ^ 8 * leByte s.lbaBytes 1 +
      2 ^ 16 * leByte s.lbaBytes 2 + 2 ^ 24 * leByte s.lbaBytes 3 ∧
    t.lbaValue = s.lbaBytes ∧
    Reports s t 1 false RangeInfo.clear ∧
    t = { s with lbaValue := t.lbaValue, status := t.status, inflight := none }

/-- LBA_ENC (42_lba.md R151): byte k of LBA_VALUE in lane k of LBA_BYTES. -/
def Obligations.LbaEncWritesLittleEndian : Prop :=
  decode 0x00000004#32 = .command .lbaEnc ∧
  ∀ s : State, ∃ t, exec .lbaEnc s = .next t ∧
    (∀ k < 4, leByte t.lbaBytes k = leByte s.lbaValue k) ∧ t.lbaBytes = s.lbaValue ∧
    Reports s t 1 false RangeInfo.clear ∧
    t = { s with lbaBytes := t.lbaBytes, status := t.status, inflight := none }

/-- The two LBA round trips (42_lba.md R153). -/
def Obligations.LbaRoundTrips : Prop :=
  ∀ s : State,
    (∃ t u, exec .lbaEnc s = .next t ∧ exec .lbaDec t = .next u ∧ u.lbaValue = s.lbaValue) ∧
    (∃ t u, exec .lbaDec s = .next t ∧ exec .lbaEnc t = .next u ∧ u.lbaBytes = s.lbaBytes)

/-- LBA_BYTE_OFFSET is LBA_VALUE × 512 exactly, read as the pair at 0x238 and 0x23C (42_lba.md R152;
10_state.md R34). -/
def Obligations.LbaByteOffsetReads : Prop :=
  ∀ s : State,
    2 ^ 32 * (s.readWindow 0x23C#10).toNat + (s.readWindow 0x238#10).toNat = s.lbaValue.toNat * 512

/-! ### Partition entries -/

/-- PE_DEC s (43_partition_entry.md R175): every field of SLOT[s] from the 16 bytes of the slot when
EFFLEN reaches them, SHORT otherwise; no other block and nothing else changes. -/
def Obligations.PeDecLoadsSlotOrReportsShort : Prop :=
  ∀ (i : Slot) (s : State),
    decode (0x00000010#32 ||| (BitVec.ofNat 32 i.val <<< 8)) = .command (.peDec i) ∧
    (entryOffset i + 16 ≤ min s.len.toNat 512 → ∃ t, exec (.peDec i) s = .next t ∧
      (t.slot i).DecodedFrom (fun k => s.sector.read (entryOffset i + k)) ∧
      (∀ k, k ≠ i → t.slot k = s.slot k) ∧
      Reports s t 1 false RangeInfo.clear ∧
      t = { s with slots := t.slots, status := t.status, inflight := none }) ∧
    (min s.len.toNat 512 < entryOffset i + 16 → ∃ t, exec (.peDec i) s = .next t ∧
      Reports s t 2 false RangeInfo.clear ∧
      t = { s with status := t.status, inflight := none })

/-- PE_ENC s (43_partition_entry.md R176, R172): the 16 bytes of the slot are those of the entry table,
or RANGE with the first failing CHS and no byte stored. The canonical form of SECTOR is a premise of the
stored bytes. -/
def Obligations.PeEncStoresEntryOrReportsRange : Prop :=
  ∀ (i : Slot) (s : State),
    decode (0x00000011#32 ||| (BitVec.ofNat 32 i.val <<< 8)) = .command (.peEnc i) ∧
    ((s.slot i).Encodable → s.sector.wf → ∃ t, exec (.peEnc i) s = .next t ∧
      (∀ k < 16, (t.sector.read (entryOffset i + k)).toNat = (s.slot i).entryByte k) ∧
      (∀ a, a < entryOffset i ∨ entryOffset i + 16 ≤ a → t.sector.read a = s.sector.read a) ∧
      Reports s t 1 false RangeInfo.clear ∧
      t = { s with sector := t.sector, status := t.status, inflight := none }) ∧
    (¬ (s.slot i).Encodable → ∃ t, exec (.peEnc i) s = .next t ∧
      Reports s t 4 false ((s.slot i).causes i) ∧
      t = { s with status := t.status, inflight := none })

/-- The frame of PE_ENC in every state: bytes outside the 16 from `slotOffset`, and every register but
STATUS, are as before (43_partition_entry.md R176). -/
def Obligations.PeEncLeavesOtherBytes : Prop :=
  ∀ (i : Slot) (s t : State), exec (.peEnc i) s = .next t →
    (∀ a, a < slotOffset i ∨ slotOffset i + 16 ≤ a → t.sector.read a = s.sector.read a) ∧
    t = { s with sector := t.sector, status := t.status, inflight := none }

/-- PE_ENC s then PE_DEC s restores SLOT[s], an absent CHS or slot coming back as a present zero
(43_partition_entry.md R177 (a), (b), (c); 90_conflicts.md C3). -/
def Obligations.EntryEncodeThenDecode : Prop :=
  ∀ (i : Slot) (s : State), s.sector.wf → (s.slot i).Encodable →
    entryOffset i + 16 ≤ s.len.toNat →
    ∃ t u, exec (.peEnc i) s = .next t ∧ exec (.peDec i) t = .next u ∧
      u.slot i = (s.slot i).normalised ∧
      ((s.slot i).valid = true → (s.slot i).startChsValid = true → (s.slot i).endChsValid = true →
        u.slot i = s.slot i)

/-- PE_DEC s then PE_ENC s restores the 16 bytes, but for bits [6:0] of the attribute byte
(43_partition_entry.md R177 (d), R173). -/
def Obligations.EntryDecodeThenEncode : Prop :=
  ∀ (i : Slot) (s : State), s.sector.wf → entryOffset i + 16 ≤ s.len.toNat →
    ∃ t u, exec (.peDec i) s = .next t ∧ exec (.peEnc i) t = .next u ∧ u.status.result = 1#4 ∧
      ∀ a, u.sector.read a =
        if a = entryOffset i then s.sector.read a &&& 0x80#8 else s.sector.read a

/-! ### The MBR sector -/

/-- MBR_DEC (44_mbr.md R200, R202, R205, R206): SHORT before NOSIG; IGN bypasses the gate and not the
check; on OK the record comes from SECTOR and SIG_OK is the validator's output. -/
def Obligations.MbrDecOutcomes : Prop :=
  decode 0x00000020#32 = .command (.mbrDec false) ∧ decode 0x00010020#32 = .command (.mbrDec true) ∧
  ∀ (ign : Bool) (s : State),
    (s.len.toNat < 512 → ∃ t, exec (.mbrDec ign) s = .next t ∧
      Reports s t 2 false RangeInfo.clear ∧ t = { s with status := t.status, inflight := none }) ∧
    (512 ≤ s.len.toNat → ¬ s.Signed → ign = false → ∃ t, exec (.mbrDec ign) s = .next t ∧
      Reports s t 3 false RangeInfo.clear ∧ t = { s with status := t.status, inflight := none }) ∧
    (512 ≤ s.len.toNat → s.Signed ∨ ign = true → ∃ t, exec (.mbrDec ign) s = .next t ∧
      Reports s t 1 (decide s.Signed) RangeInfo.clear ∧
      t.diskSig.toNat = leNumber (s.sector.read 0x1B8) (s.sector.read 0x1B9) (s.sector.read 0x1BA)
        (s.sector.read 0x1BB) ∧
      t.diskSigValid = true ∧
      (∀ i, (t.slot i).DecodedFrom fun k => s.sector.read (entryOffset i + k)) ∧
      t = { s with diskSig := t.diskSig, diskSigValid := t.diskSigValid, slots := t.slots,
                   status := t.status, inflight := none })

/-- MBR_DEC reads LEN and the bytes 0x1B8–0x1BB and 0x1BE–0x1FF, no others: two states that agree on
those get the same outcome and the same record (44_mbr.md R201). -/
def Obligations.MbrDecReadsOnlyRecordBytes : Prop :=
  ∀ (ign : Bool) (s s' : State), s.len = s'.len →
    (∀ a, (0x1B8 ≤ a ∧ a ≤ 0x1BB) ∨ (0x1BE ≤ a ∧ a ≤ 0x1FF) → s.sector.read a = s'.sector.read a) →
    ∃ t t', exec (.mbrDec ign) s = .next t ∧ exec (.mbrDec ign) s' = .next t' ∧
      t.status.result = t'.status.result ∧ t.status.sigOk = t'.status.sigOk ∧
      t.status.range = t'.status.range ∧
      (t.status.result = 1#4 →
        t.diskSig = t'.diskSig ∧ t.diskSigValid = t'.diskSigValid ∧ t.slots = t'.slots)

/-- MBR_ENC of encodable slots (44_mbr.md R203, R204; 20_memory.md R71): all 512 bytes of SECTOR, LEN =
0x200, and nothing else. -/
def Obligations.MbrEncBuildsSector : Prop :=
  decode 0x00000021#32 = .command .mbrEnc ∧
  ∀ s : State, (∀ i, (s.slot i).Encodable) → ∃ t, exec .mbrEnc s = .next t ∧
    (∀ k < 4, (t.sector.read (0x1B8 + k)).toNat = if s.diskSigValid then leByte s.diskSig k else 0) ∧
    (∀ i : Slot, ∀ k < 16, (t.sector.read (entryOffset i + k)).toNat = (s.slot i).entryByte k) ∧
    t.Signed ∧
    (∀ a, a < 0x1B8 ∨ a = 0x1BC ∨ a = 0x1BD → t.sector.read a = 0x00#8) ∧
    t.len = 0x200#16 ∧ Reports s t 1 false RangeInfo.clear ∧
    t = { s with sector := t.sector, len := t.len, status := t.status, inflight := none }

/-- MBR_ENC answers RANGE for the least slot that is not encodable, and stores nothing (44_mbr.md R203;
60_exceptions.md R238). -/
def Obligations.MbrEncReportsLeastFailingSlot : Prop :=
  ∀ (i : Slot) (s : State), ¬ (s.slot i).Encodable → (∀ k < i, (s.slot k).Encodable) →
    ∃ t, exec .mbrEnc s = .next t ∧ Reports s t 4 false ((s.slot i).causes i) ∧
      t = { s with status := t.status, inflight := none }

/-- Whenever MBR_ENC completes OK, MBR_DEC with IGN = 0 after it completes OK with SIG_OK = 1 and restores
the record, absent values coming back as present zeros (44_mbr.md R207). -/
def Obligations.MbrEncodeThenDecode : Prop :=
  ∀ s t : State, exec .mbrEnc s = .next t → t.status.result = 1#4 →
    ∃ u, exec (.mbrDec false) t = .next u ∧
      Reports t u 1 true RangeInfo.clear ∧
      u.diskSig = (if s.diskSigValid then s.diskSig else 0#32) ∧ u.diskSigValid = true ∧
      ∀ i, u.slot i = (s.slot i).normalised

/-- MBR_DEC (OK) then MBR_ENC rewrites SECTOR to the original with the four changes of 44_mbr.md
R208. -/
def Obligations.MbrDecodeThenEncode : Prop :=
  ∀ (ign : Bool) (s t : State), exec (.mbrDec ign) s = .next t → t.status.result = 1#4 →
    ∃ u, exec .mbrEnc t = .next u ∧ u.status.result = 1#4 ∧
      ∀ a < 512, u.sector.read a =
        if a < 0x1B8 ∨ a = 0x1BC ∨ a = 0x1BD then 0x00#8
        else if a = 0x1BE ∨ a = 0x1CE ∨ a = 0x1DE ∨ a = 0x1EE then s.sector.read a &&& 0x80#8
        else if a = 0x1FE then 0x55#8
        else if a = 0x1FF then 0xAA#8
        else s.sector.read a

/-- The two spellings of the boot signature are equivalent, and it is present exactly when the word at
0x1FC reads 0xAA55 in its high half; the low half holds SECTOR[0x1FD] and SECTOR[0x1FC]
(20_memory.md R67). -/
def Obligations.SignatureSeenThroughPort : Prop :=
  ∀ s : State,
    (s.Signed ↔ (s.sector.read 0x1FE).toNat + 2 ^ 8 * (s.sector.read 0x1FF).toNat = 0xAA55) ∧
    (s.Signed ↔ (s.readWindow 0x1FC#10).toNat / 2 ^ 16 = 0xAA55) ∧
    (s.readWindow 0x1FC#10).toNat % 2 ^ 16 =
      (s.sector.read 0x1FC).toNat + 2 ^ 8 * (s.sector.read 0x1FD).toNat

/-- Every command but PE_ENC and MBR_ENC leaves every byte of SECTOR, and CMD and LEN, as before
(10_state.md R21, R23; 30_encoding.md R97). -/
def Obligations.NonStoringCommandsLeaveSector : Prop :=
  ∀ (i : Instr) (s t : State),
    (i = .chsDec ∨ i = .chsEnc ∨ i = .lbaDec ∨ i = .lbaEnc ∨ (∃ k, i = .peDec k) ∨ ∃ g, i = .mbrDec g) →
    exec i s = .next t → SameSector s t ∧ t.cmd = s.cmd ∧ t.len = s.len

/-! ### The host port -/

/-- The word at offset 4k holds byte 4k + j of SECTOR in lane j (20_memory.md R61). -/
def Obligations.SectorWordReadsLittleEndian : Prop :=
  ∀ (s : State) (k : Nat), k < 128 →
    (s.readWindow (BitVec.ofNat 10 (4 * k))).toNat =
      leNumber (s.sector.read (4 * k)) (s.sector.read (4 * k + 1)) (s.sector.read (4 * k + 2))
        (s.sector.read (4 * k + 3))

/-- A write to a SECTOR word stores D[8j+7:8j] in byte 4k + j for each strobe S[j], and changes no other
byte and no register (20_memory.md R64, R61). -/
def Obligations.SectorWriteStoresStrobedBytes : Prop :=
  ∀ (s : State) (rest : List PortCycle) (k : Nat) (d : Word) (m : BitVec 4), k < 128 → m ≠ 0#4 →
    s.sector.wf → s.resultLegal = true → s.inflight = none →
    s.Presents (some (.write (BitVec.ofNat 10 (4 * k)) d m)) rest →
    ∃ t, step s = .next t ∧
      (∀ j < 4, (t.sector.read (4 * k + j)).toNat =
        if m.getLsbD j then leByte d j else (s.sector.read (4 * k + j)).toNat) ∧
      (∀ a, a < 4 * k ∨ 4 * k + 4 ≤ a → t.sector.read a = s.sector.read a) ∧
      t = { s with sector := t.sector, port := rest }

/-- A write with S = 0b0000 has no effect at all, busy or not: its cycle is an idle cycle (20_memory.md
R64). -/
def Obligations.UnstrobedWriteHasNoEffect : Prop :=
  ∀ (s : State) (rest : List PortCycle) (a : BitVec 10) (d : Word),
    s.Presents (some (.write a d 0#4)) rest → step s = step s.withIdleCycle

/-- The port ignores A[1:0]: a transaction at any A is the one at A & 0x3FC (20_memory.md R63). -/
def Obligations.LowAddressBitsIgnored : Prop :=
  ∀ (s : State) (rest : List PortCycle) (a : BitVec 10) (d : Word) (m : BitVec 4),
    (s.Presents (some (.read a)) rest →
      step s = step (s.setPort ({ reset := false, txn := some (.read (a &&& 0x3FC#10)) } :: rest))) ∧
    (s.Presents (some (.write a d m)) rest →
      step s = step (s.setPort ({ reset := false, txn := some (.write (a &&& 0x3FC#10) d m) } :: rest)))

/-- A read while BUSY = 0 returns the word of the window and has no side effect (20_memory.md R65,
R70). -/
def Obligations.ReadyReadReturnsWindowWord : Prop :=
  ∀ (s : State) (rest : List PortCycle) (a : BitVec 10), s.resultLegal = true → s.inflight = none →
    s.Presents (some (.read a)) rest →
    step s = .next { s with port := rest, reads := s.readWindow a :: s.reads }

/-- A read while BUSY = 1 answers one word and changes nothing else of what the cycle does: the exact
STATUS word, with BUSY = 1, at STATUS, and some word elsewhere (70_reset_and_hazards.md R270). Which word
is a free value (log 3). -/
def Obligations.BusyReadsOnlyStatusExactly : Prop :=
  ∀ (s : State) (rest : List PortCycle) (a : BitVec 10) (j : InFlight), s.resultLegal = true →
    s.inflight = some j → s.Presents (some (.read a)) rest →
    ∃ t u w, step s = .next t ∧ step s.withIdleCycle = .next u ∧ t.reads = w :: s.reads ∧
      t = { u with reads := t.reads, draws := t.draws } ∧
      (0x204 ≤ a.toNat ∧ a.toNat < 0x208 → w = s.statusWord ∧ w.getLsbD 8 = true)

/-- A write with a strobe set while BUSY = 1, at whatever offset, is dropped and sets OVR: its cycle is an
idle cycle but for OVR, and completion in that cycle does not clear OVR (10_state.md R29). -/
def Obligations.BusyWriteDroppedAndSetsOvr : Prop :=
  ∀ (s : State) (rest : List PortCycle) (a : BitVec 10) (d : Word) (m : BitVec 4) (j : InFlight),
    s.resultLegal = true → s.inflight = some j → m ≠ 0#4 → s.Presents (some (.write a d m)) rest →
    ∃ u, step s.withIdleCycle = .next u ∧
      step s = .next { u with status := { u.status with ovr := true } }

/-- OVR is cleared only by a reset cycle or by a write to STATUS while BUSY = 0 whose merged word has bit
31 = 1 (10_state.md R29; 20_memory.md R64). For a write that does not strobe lane 3 the merged bit is the
model's reading, log 8. -/
def Obligations.OvrClearedOnlyByStatusWriteOrReset : Prop :=
  ∀ s t : State, step s = .next t → s.status.ovr = true → t.status.ovr = false →
    s.presented.reset = true ∨
    (s.busy = false ∧ ∃ a d m, s.presented.txn = some (.write a d m) ∧ m ≠ 0#4 ∧
      0x204 ≤ a.toNat ∧ a.toNat < 0x208 ∧ (merge s.statusWord d m).getLsbD 31 = true)

/-- Outside reset cycles OVR is set by exactly the writes that arrive while BUSY = 1 with a strobe set, so
that OVR = 0 shows there were none (10_state.md R29; 70_reset_and_hazards.md R271). -/
def Obligations.OvrSetOnlyByBusyWrite : Prop :=
  ∀ s t : State, step s = .next t → s.status.ovr = false → s.presented.reset = false →
    (t.status.ovr = true ↔ s.busy = true ∧ s.presented.strobedWrite = true)

/-- The STATUS word, field by field (10_state.md R24); BUSY is 1 exactly while a command is in flight
(R26). -/
def Obligations.StatusWordLayout : Prop :=
  ∀ s : State, (s.readWindow 0x204#10).toNat =
    s.status.result.toNat + 2 ^ 8 * s.inflight.isSome.toNat + 2 ^ 9 * s.status.sigOk.toNat +
      2 ^ 10 * s.status.range.cyl.toNat + 2 ^ 11 * s.status.range.head.toNat +
      2 ^ 12 * s.status.range.sect.toNat + 2 ^ 13 * s.status.range.inEnd.toNat +
      2 ^ 14 * s.status.range.slot.val + 2 ^ 31 * s.status.ovr.toNat

/-- A write to STATUS while BUSY = 0 that strobes lane 3 clears OVR if bit 31 of the data is 1, and
changes nothing else (10_state.md R24). -/
def Obligations.StatusWriteClearsOnlyOvr : Prop :=
  ∀ (s : State) (rest : List PortCycle) (d : Word) (m : BitVec 4), m.getLsbD 3 = true →
    s.resultLegal = true → s.inflight = none → s.Presents (some (.write 0x204#10 d m)) rest →
    step s = .next { s with port := rest,
                            status := { s.status with ovr := s.status.ovr && !d.getLsbD 31 } }

/-- A write while BUSY = 0 to a register that stores bits: its writable bits become those of the merged
word, and every other bit reads as zero, but for TYPE_KNOWN (20_memory.md R64; 10_state.md R23, R30–R32,
R34–R38, R41). Which register stands at which offset is RegisterMapReads and RegisterMapWrites. -/
def Obligations.RegisterWriteReadsBack : Prop :=
  ∀ (s : State) (rest : List PortCycle) (a : BitVec 10) (d : Word) (m : BitVec 4),
    s.resultLegal = true → s.inflight = none → m ≠ 0#4 → storesBits (target a) = true →
    s.Presents (some (.write a d m)) rest →
    ∃ t, step s = .next t ∧
      t.readWindow a &&& writableBits (target a) =
        merge (s.readWindow a) d m &&& writableBits (target a) ∧
      ((∀ i, target a ≠ .slot i .ctrl) → t.readWindow a &&& ~~~(writableBits (target a)) = 0#32) ∧
      (∀ i, target a = .slot i .ctrl → t.readWindow a &&& 0xFFFE00F0#32 = 0#32)

/-- A write while BUSY = 0 to a register that stores bits leaves every other register, every byte of
SECTOR, CMD and STATUS as before (10_state.md R20, R35). -/
def Obligations.RegisterWriteLeavesOtherRegisters : Prop :=
  ∀ (s : State) (rest : List PortCycle) (a : BitVec 10) (d : Word) (m : BitVec 4),
    s.resultLegal = true → s.inflight = none → m ≠ 0#4 → storesBits (target a) = true →
    s.Presents (some (.write a d m)) rest →
    ∃ t, step s = .next t ∧
      (∀ r, storesBits r = true → r ≠ target a → t.readTarget r = s.readTarget r) ∧
      SameSector s t ∧ t.cmd = s.cmd ∧ t.status = s.status ∧ t.inflight = none

/-- A write while BUSY = 0 to a reserved offset or a read-only register has no effect (10_state.md R34,
R39, R40, R41). -/
def Obligations.ReadOnlyAndReservedIgnoreWrites : Prop :=
  ∀ (s : State) (rest : List PortCycle) (a : BitVec 10) (d : Word) (m : BitVec 4),
    s.resultLegal = true → s.inflight = none → 0x20C ≤ a.toNat → storesBits (target a) = false →
    s.Presents (some (.write a d m)) rest → step s = .next { s with port := rest }

/-- END_LBA of each slot, read as the pair at +0x24 and +0x28, is exact in 33 bits whatever VALID is
(43_partition_entry.md R178; 10_state.md R39). -/
def Obligations.EndLbaReadsExactly : Prop :=
  ∀ (s : State) (i : Slot),
    2 ^ 32 * (s.readWindow (BitVec.ofNat 10 (0x328 + 0x40 * i.val))).toNat +
        (s.readWindow (BitVec.ofNat 10 (0x324 + 0x40 * i.val))).toNat =
      if 0 < (s.slot i).sectorCount.toNat then
        (s.slot i).startLba.toNat + (s.slot i).sectorCount.toNat - 1
      else (s.slot i).startLba.toNat

/-- BYTE_COUNT of each slot, read as the pair at +0x2C and +0x30, is SECTOR_COUNT × 512 exactly
(43_partition_entry.md R179; 10_state.md R40). -/
def Obligations.ByteCountReadsExactly : Prop :=
  ∀ (s : State) (i : Slot),
    2 ^ 32 * (s.readWindow (BitVec.ofNat 10 (0x330 + 0x40 * i.val))).toNat +
        (s.readWindow (BitVec.ofNat 10 (0x32C + 0x40 * i.val))).toNat =
      (s.slot i).sectorCount.toNat * 512

/-- SLOT_CTRL of each slot, field by field, with TYPE_KNOWN the registry's verdict on TYPE, 1 at the four
known values and 0 at the two raw ones that the spec fixes (10_state.md R36; 40_type_registry.md R120,
R121). -/
def Obligations.SlotCtrlReadsFieldsAndVerdict : Prop :=
  (∀ (s : State) (i : Slot),
    (s.readWindow (BitVec.ofNat 10 (0x300 + 0x40 * i.val))).toNat =
      (s.slot i).valid.toNat + 2 * (s.slot i).bootable.toNat + 4 * (s.slot i).startChsValid.toNat +
        8 * (s.slot i).endChsValid.toNat + 2 ^ 8 * (s.slot i).ptype.toNat +
        2 ^ 16 * (knownType (s.slot i).ptype).toNat) ∧
  knownType 0x83#8 = true ∧ knownType 0x82#8 = true ∧ knownType 0xEE#8 = true ∧ knownType 0x07#8 = true ∧
  knownType 0x99#8 = false ∧ knownType 0x00#8 = false

/-! ### The sequencer -/

/-- A write to CMD with S ≠ 0 while BUSY = 0 is accepted: CMD holds the merged word, whole; with latency 0
the word's command runs in the same cycle, otherwise it is in flight for its latency (30_encoding.md R95;
10_state.md R22, R26). -/
def Obligations.CmdWriteAcceptsCommand : Prop :=
  ∀ (s : State) (rest : List PortCycle) (d w : Word) (m : BitVec 4), m ≠ 0#4 → s.resultLegal = true →
    s.inflight = none → s.Presents (some (.write 0x200#10 d m)) rest → w = merge s.cmd d m →
    step s =
      if latency w = 0 then runWord w { s with port := rest, cmd := w }
      else .next { s with port := rest, cmd := w,
                          inflight := some { word := w, remaining := latency w } }

/-- A step runs the decoded command: in the last cycle of its latency the step is exactly `exec` of the
command that the accepted word decodes to, after the cycle's host transaction (30_encoding.md R95, R96).
The order of the two within the cycle is the model's, log 7. -/
def Obligations.LastCycleRunsDecodedCommand : Prop :=
  ∀ (s : State) (j : InFlight) (i : Instr), s.resultLegal = true → s.presented.reset = false →
    s.inflight = some j → j.remaining ≤ 1 → decode j.word = .command i →
    step s = exec i (busyTransaction s.presented.txn s.popPort)

/-- The state that `withFetchWord` gives runs exactly the command of its word in its next step, on the
registers and the SECTOR of `s` (log 11). -/
def Obligations.FetchWordRunsCommand : Prop :=
  ∀ (s : State) (i : Instr), s.resultLegal = true →
    ∃ s', step (s.withFetchWord 32 (encode i).toNat) = exec i s' ∧
      s' = { s with cmd := encode i, inflight := s'.inflight, port := [] }

/-- Every accepted command completes: after its acceptance cycle and its latency, with whatever
transactions the host presents and no reset, the machine is the one that the word's rule gives on the
state at acceptance, but for OVR and the port's own bookkeeping (30_encoding.md R95; 20_memory.md R69;
70_reset_and_hazards.md R275). A transaction in the completing cycle still meets BUSY = 1, the model's
choice, log 7. -/
def Obligations.AcceptedCommandCompletes : Prop :=
  ∀ (s : State) (rest : List PortCycle) (d w : Word) (m : BitVec 4), m ≠ 0#4 → s.resultLegal = true →
    s.inflight = none → s.Presents (some (.write 0x200#10 d m)) rest → w = merge s.cmd d m →
    (∀ c ∈ rest.take (latency w), c.reset = false) →
    ∃ t u, Sys2Proof.core.run (1 + latency w) s = .next t ∧
      runWord w { s with cmd := w } = .next u ∧ t.busy = false ∧ t.hideTraffic = u.hideTraffic

/-- A command in flight is atomic to the host: over the rest of its latency, with any transactions and no
reset, the machine reaches what the word's rule gives on the state as it stands, and OVR is set exactly if
it was or a write with a strobe arrived (20_memory.md R69; 10_state.md R29, R42). A write in the
completing cycle counts as arriving while BUSY = 1, the model's choice, log 7. -/
def Obligations.InFlightCommandIsAtomic : Prop :=
  ∀ (s : State) (j : InFlight), s.resultLegal = true → s.inflight = some j → 1 ≤ j.remaining →
    (∀ c ∈ s.port.take j.remaining, c.reset = false) →
    ∃ t u, Sys2Proof.core.run j.remaining s = .next t ∧ runWord j.word s = .next u ∧
      t.busy = false ∧ t.hideTraffic = u.hideTraffic ∧ t.port = s.port.drop j.remaining ∧
      t.status.ovr = (s.status.ovr || (s.port.take j.remaining).any PortCycle.strobedWrite)

/-- The completion handshake: a host that writes the word of a command to CMD and polls STATUS until BUSY
= 0 finds the command complete, with the results its rule gives on the state at the write, and has set no
OVR (70_reset_and_hazards.md R271; 30_encoding.md R101). The WAIT loop is bounded by `fuel` polls, the
model's choice, log 16; one more than the latency is enough, with a poll in the completing cycle still
reading BUSY = 1 (log 7). -/
def Obligations.HandshakeDeliversResults : Prop :=
  ∀ (fuel : Nat) (i : Instr) (s : State), s.resultLegal = true → s.inflight = none → s.port = [] →
    latency (encode i) < fuel →
    ∃ t u, runStatement fuel (.command i) s = .next t ∧ exec i { s with cmd := encode i } = .next u ∧
      t.busy = false ∧ t.status.ovr = s.status.ovr ∧ t.hideTraffic = u.hideTraffic

/-! ### Invariant, faults and reset -/

/-- Every step keeps the invariant: SECTOR's canonical form, a consistent STATUS (10_state.md R25, R27,
R28), and an in-flight word that is CMD with latency left (R22, R42). -/
def Obligations.StepKeepsInvariant : Prop :=
  ∀ s t : State, s.Inv → step s = .next t → t.Inv

/-- The invariant holds at reset (10_state.md R44). -/
def Obligations.ResetMeetsInvariant : Prop := State.reset.Inv

/-- A step stops exactly in the fault states, those whose RESULT is a code that is never produced
(10_state.md R25; 93_implementation_defined.md I5). -/
def Obligations.StopsExactlyOnUnproducedResult : Prop :=
  ∀ s : State, (5 < s.status.result.toNat ↔ step s = .fault .resultNeverProduced) ∧
    (s.status.result.toNat ≤ 5 ↔ s.Steps)

/-- At reset every word of the window reads 0 but LEN, which reads 0x200, no command is in flight and
STATUS reads NONE (10_state.md R44). -/
def Obligations.ResetReadsAsListed : Prop :=
  (∀ a : BitVec 10, State.reset.readWindow a = if a.toNat / 4 = 0x208 / 4 then 0x200#32 else 0#32) ∧
  State.reset.inflight = none

/-- A cycle with reset asserted, whatever the host presents and whatever is in flight, puts every piece of
the spec's state at its reset value, so that no effect of an abandoned command appears and OVR is not set
(70_reset_and_hazards.md R260, R261). That the model's own fields stay is the model's choice, log 10. -/
def Obligations.ResetCycleRestoresEverything : Prop :=
  ∀ (s : State) (x : Option Txn) (rest : List PortCycle), s.resultLegal = true →
    s.port = { reset := true, txn := x } :: rest →
    step s = .next { State.reset with port := rest, reads := s.reads, draws := s.draws }

/-- RESULT, SIG_OK and the RANGE fields change only in a cycle that completes a command or asserts reset
(10_state.md R25, R27, R28). -/
def Obligations.OutcomeChangesOnlyAtCompletion : Prop :=
  ∀ s t : State, step s = .next t →
    t.status.result ≠ s.status.result ∨ t.status.sigOk ≠ s.status.sigOk ∨
      t.status.range ≠ s.status.range →
    s.presented.reset = true ∨ (∃ j, s.inflight = some j ∧ j.remaining ≤ 1) ∨
    (s.inflight = none ∧ ∃ a d m, s.presented.txn = some (.write a d m) ∧ m ≠ 0#4 ∧
      0x200 ≤ a.toNat ∧ a.toNat < 0x204 ∧ latency (merge s.cmd d m) = 0)

/-- CMD changes only in a cycle that accepts a write to it, while BUSY = 0, or asserts reset; a CMD write
while BUSY = 1 changes it in no way (10_state.md R22). -/
def Obligations.CmdChangesOnlyAtAcceptance : Prop :=
  ∀ s t : State, step s = .next t → t.cmd ≠ s.cmd →
    s.presented.reset = true ∨
    (s.inflight = none ∧ ∃ a d m, s.presented.txn = some (.write a d m) ∧ m ≠ 0#4 ∧
      0x200 ≤ a.toNat ∧ a.toNat < 0x204 ∧ t.cmd = merge s.cmd d m)

/-! ### The register map -/

/-- What every offset of the register map reads as, field by field: CMD, LEN, DISK_SIG, DISK_SIG_VALID,
the CHS and LBA operands, the stored registers of each slot block, and 0 at the reserved offsets
(10_state.md, section 3; R22, R23, R30–R32, R34, R35, R37, R38, R41). STATUS, the derived registers,
SLOT_CTRL and SECTOR have statements of their own. -/
def Obligations.RegisterMapReads : Prop :=
  ∀ s : State,
    s.readWindow 0x200#10 = s.cmd ∧
    (s.readWindow 0x208#10).toNat = s.len.toNat ∧
    s.readWindow 0x20C#10 = s.diskSig ∧
    (s.readWindow 0x210#10).toNat = s.diskSigValid.toNat ∧
    (s.readWindow 0x220#10).toNat = s.chs.cyl.toNat ∧
    (s.readWindow 0x224#10).toNat = s.chs.head.toNat ∧
    (s.readWindow 0x228#10).toNat = s.chs.sect.toNat ∧
    (s.readWindow 0x22C#10).toNat = s.chsPacked.toNat ∧
    s.readWindow 0x230#10 = s.lbaValue ∧
    s.readWindow 0x234#10 = s.lbaBytes ∧
    (∀ i : Slot,
      (s.readWindow (slotWindow i 0x04)).toNat = (s.slot i).startChs.cyl.toNat ∧
      (s.readWindow (slotWindow i 0x08)).toNat = (s.slot i).startChs.head.toNat ∧
      (s.readWindow (slotWindow i 0x0C)).toNat = (s.slot i).startChs.sect.toNat ∧
      (s.readWindow (slotWindow i 0x10)).toNat = (s.slot i).endChs.cyl.toNat ∧
      (s.readWindow (slotWindow i 0x14)).toNat = (s.slot i).endChs.head.toNat ∧
      (s.readWindow (slotWindow i 0x18)).toNat = (s.slot i).endChs.sect.toNat ∧
      s.readWindow (slotWindow i 0x1C) = (s.slot i).startLba ∧
      s.readWindow (slotWindow i 0x20) = (s.slot i).sectorCount) ∧
    (∀ a : BitVec 10, (0x214 ≤ a.toNat ∧ a.toNat < 0x220) ∨ (0x240 ≤ a.toNat ∧ a.toNat < 0x300) ∨
      (0x300 ≤ a.toNat ∧ 0x34 ≤ a.toNat % 0x40) → s.readWindow a = 0#32)

/-- What a write while BUSY = 0 stores at every offset of the register map but SECTOR, CMD and STATUS, as
the whole next state: the merged word goes into the field of that offset, cut to its width, and nothing
else changes. These are exactly the offsets that store bits, and a slot block written is the one read back
(10_state.md, section 3; R23, R30–R32, R34–R38; 20_memory.md R64). -/
def Obligations.RegisterMapWrites : Prop :=
  (∀ s : State, s.resultLegal = true → s.inflight = none →
    s.WriteStores 0x208#10 (fun w => { s with len := w.setWidth 16 }) ∧
    s.WriteStores 0x20C#10 (fun w => { s with diskSig := w }) ∧
    s.WriteStores 0x210#10 (fun w => { s with diskSigValid := w.getLsbD 0 }) ∧
    s.WriteStores 0x220#10 (fun w => { s with chs := { s.chs with cyl := w.setWidth 16 } }) ∧
    s.WriteStores 0x224#10 (fun w => { s with chs := { s.chs with head := w.setWidth 16 } }) ∧
    s.WriteStores 0x228#10 (fun w => { s with chs := { s.chs with sect := w.setWidth 16 } }) ∧
    s.WriteStores 0x22C#10 (fun w => { s with chsPacked := w.setWidth 24 }) ∧
    s.WriteStores 0x230#10 (fun w => { s with lbaValue := w }) ∧
    s.WriteStores 0x234#10 (fun w => { s with lbaBytes := w }) ∧
    ∀ (i : Slot) (b : SlotBlock), b = s.slot i →
      s.WriteStores (slotWindow i 0x00) (fun w => s.setSlot i
        { b with valid := w.getLsbD 0, bootable := w.getLsbD 1, startChsValid := w.getLsbD 2,
                 endChsValid := w.getLsbD 3, ptype := w.extractLsb' 8 8 }) ∧
      s.WriteStores (slotWindow i 0x04)
        (fun w => s.setSlot i { b with startChs := { b.startChs with cyl := w.setWidth 16 } }) ∧
      s.WriteStores (slotWindow i 0x08)
        (fun w => s.setSlot i { b with startChs := { b.startChs with head := w.setWidth 16 } }) ∧
      s.WriteStores (slotWindow i 0x0C)
        (fun w => s.setSlot i { b with startChs := { b.startChs with sect := w.setWidth 16 } }) ∧
      s.WriteStores (slotWindow i 0x10)
        (fun w => s.setSlot i { b with endChs := { b.endChs with cyl := w.setWidth 16 } }) ∧
      s.WriteStores (slotWindow i 0x14)
        (fun w => s.setSlot i { b with endChs := { b.endChs with head := w.setWidth 16 } }) ∧
      s.WriteStores (slotWindow i 0x18)
        (fun w => s.setSlot i { b with endChs := { b.endChs with sect := w.setWidth 16 } }) ∧
      s.WriteStores (slotWindow i 0x1C) (fun w => s.setSlot i { b with startLba := w }) ∧
      s.WriteStores (slotWindow i 0x20) (fun w => s.setSlot i { b with sectorCount := w })) ∧
  (∀ (s : State) (i k : Slot) (b : SlotBlock),
    (s.setSlot i b).slot k = (if k = i then b else s.slot k) ∧
    s.setSlot i b = { s with slots := (s.setSlot i b).slots }) ∧
  ∀ a : BitVec 10, storesBits (target a) = true ↔
    (0x208 ≤ a.toNat ∧ a.toNat < 0x214) ∨ (0x220 ≤ a.toNat ∧ a.toNat < 0x238) ∨
    (0x300 ≤ a.toNat ∧ a.toNat % 0x40 < 0x24)
end

