-- ==== Sys2Proof/Laws/State.lean ====
section
/-! SUPPORT. One lemma per field per update of State: each update sets its own field and leaves the
others. Later proofs cite these and unfold no record update. -/

namespace Sys2Proof.Machine

variable (s : State)

/-! ### setSector -/

@[simp] theorem State.setSector_sector (x : Memory) : (s.setSector x).sector = x := rfl
@[simp] theorem State.setSector_cmd (x : Memory) : (s.setSector x).cmd = s.cmd := rfl
@[simp] theorem State.setSector_status (x : Memory) : (s.setSector x).status = s.status := rfl
@[simp] theorem State.setSector_len (x : Memory) : (s.setSector x).len = s.len := rfl
@[simp] theorem State.setSector_diskSig (x : Memory) : (s.setSector x).diskSig = s.diskSig := rfl
@[simp] theorem State.setSector_diskSigValid (x : Memory) : (s.setSector x).diskSigValid = s.diskSigValid := rfl
@[simp] theorem State.setSector_chs (x : Memory) : (s.setSector x).chs = s.chs := rfl
@[simp] theorem State.setSector_chsPacked (x : Memory) : (s.setSector x).chsPacked = s.chsPacked := rfl
@[simp] theorem State.setSector_lbaValue (x : Memory) : (s.setSector x).lbaValue = s.lbaValue := rfl
@[simp] theorem State.setSector_lbaBytes (x : Memory) : (s.setSector x).lbaBytes = s.lbaBytes := rfl
@[simp] theorem State.setSector_slots (x : Memory) : (s.setSector x).slots = s.slots := rfl
@[simp] theorem State.setSector_inflight (x : Memory) : (s.setSector x).inflight = s.inflight := rfl
@[simp] theorem State.setSector_port (x : Memory) : (s.setSector x).port = s.port := rfl
@[simp] theorem State.setSector_reads (x : Memory) : (s.setSector x).reads = s.reads := rfl
@[simp] theorem State.setSector_draws (x : Memory) : (s.setSector x).draws = s.draws := rfl
@[simp] theorem State.setSector_slot (x : Memory) (i : Slot) : (s.setSector x).slot i = s.slot i := rfl

/-! ### setCmd -/

@[simp] theorem State.setCmd_sector (x : Word) : (s.setCmd x).sector = s.sector := rfl
@[simp] theorem State.setCmd_cmd (x : Word) : (s.setCmd x).cmd = x := rfl
@[simp] theorem State.setCmd_status (x : Word) : (s.setCmd x).status = s.status := rfl
@[simp] theorem State.setCmd_len (x : Word) : (s.setCmd x).len = s.len := rfl
@[simp] theorem State.setCmd_diskSig (x : Word) : (s.setCmd x).diskSig = s.diskSig := rfl
@[simp] theorem State.setCmd_diskSigValid (x : Word) : (s.setCmd x).diskSigValid = s.diskSigValid := rfl
@[simp] theorem State.setCmd_chs (x : Word) : (s.setCmd x).chs = s.chs := rfl
@[simp] theorem State.setCmd_chsPacked (x : Word) : (s.setCmd x).chsPacked = s.chsPacked := rfl
@[simp] theorem State.setCmd_lbaValue (x : Word) : (s.setCmd x).lbaValue = s.lbaValue := rfl
@[simp] theorem State.setCmd_lbaBytes (x : Word) : (s.setCmd x).lbaBytes = s.lbaBytes := rfl
@[simp] theorem State.setCmd_slots (x : Word) : (s.setCmd x).slots = s.slots := rfl
@[simp] theorem State.setCmd_inflight (x : Word) : (s.setCmd x).inflight = s.inflight := rfl
@[simp] theorem State.setCmd_port (x : Word) : (s.setCmd x).port = s.port := rfl
@[simp] theorem State.setCmd_reads (x : Word) : (s.setCmd x).reads = s.reads := rfl
@[simp] theorem State.setCmd_draws (x : Word) : (s.setCmd x).draws = s.draws := rfl
@[simp] theorem State.setCmd_slot (x : Word) (i : Slot) : (s.setCmd x).slot i = s.slot i := rfl

/-! ### setStatus -/

@[simp] theorem State.setStatus_sector (x : Status) : (s.setStatus x).sector = s.sector := rfl
@[simp] theorem State.setStatus_cmd (x : Status) : (s.setStatus x).cmd = s.cmd := rfl
@[simp] theorem State.setStatus_status (x : Status) : (s.setStatus x).status = x := rfl
@[simp] theorem State.setStatus_len (x : Status) : (s.setStatus x).len = s.len := rfl
@[simp] theorem State.setStatus_diskSig (x : Status) : (s.setStatus x).diskSig = s.diskSig := rfl
@[simp] theorem State.setStatus_diskSigValid (x : Status) : (s.setStatus x).diskSigValid = s.diskSigValid := rfl
@[simp] theorem State.setStatus_chs (x : Status) : (s.setStatus x).chs = s.chs := rfl
@[simp] theorem State.setStatus_chsPacked (x : Status) : (s.setStatus x).chsPacked = s.chsPacked := rfl
@[simp] theorem State.setStatus_lbaValue (x : Status) : (s.setStatus x).lbaValue = s.lbaValue := rfl
@[simp] theorem State.setStatus_lbaBytes (x : Status) : (s.setStatus x).lbaBytes = s.lbaBytes := rfl
@[simp] theorem State.setStatus_slots (x : Status) : (s.setStatus x).slots = s.slots := rfl
@[simp] theorem State.setStatus_inflight (x : Status) : (s.setStatus x).inflight = s.inflight := rfl
@[simp] theorem State.setStatus_port (x : Status) : (s.setStatus x).port = s.port := rfl
@[simp] theorem State.setStatus_reads (x : Status) : (s.setStatus x).reads = s.reads := rfl
@[simp] theorem State.setStatus_draws (x : Status) : (s.setStatus x).draws = s.draws := rfl
@[simp] theorem State.setStatus_slot (x : Status) (i : Slot) : (s.setStatus x).slot i = s.slot i := rfl

/-! ### setLen -/

@[simp] theorem State.setLen_sector (x : BitVec 16) : (s.setLen x).sector = s.sector := rfl
@[simp] theorem State.setLen_cmd (x : BitVec 16) : (s.setLen x).cmd = s.cmd := rfl
@[simp] theorem State.setLen_status (x : BitVec 16) : (s.setLen x).status = s.status := rfl
@[simp] theorem State.setLen_len (x : BitVec 16) : (s.setLen x).len = x := rfl
@[simp] theorem State.setLen_diskSig (x : BitVec 16) : (s.setLen x).diskSig = s.diskSig := rfl
@[simp] theorem State.setLen_diskSigValid (x : BitVec 16) : (s.setLen x).diskSigValid = s.diskSigValid := rfl
@[simp] theorem State.setLen_chs (x : BitVec 16) : (s.setLen x).chs = s.chs := rfl
@[simp] theorem State.setLen_chsPacked (x : BitVec 16) : (s.setLen x).chsPacked = s.chsPacked := rfl
@[simp] theorem State.setLen_lbaValue (x : BitVec 16) : (s.setLen x).lbaValue = s.lbaValue := rfl
@[simp] theorem State.setLen_lbaBytes (x : BitVec 16) : (s.setLen x).lbaBytes = s.lbaBytes := rfl
@[simp] theorem State.setLen_slots (x : BitVec 16) : (s.setLen x).slots = s.slots := rfl
@[simp] theorem State.setLen_inflight (x : BitVec 16) : (s.setLen x).inflight = s.inflight := rfl
@[simp] theorem State.setLen_port (x : BitVec 16) : (s.setLen x).port = s.port := rfl
@[simp] theorem State.setLen_reads (x : BitVec 16) : (s.setLen x).reads = s.reads := rfl
@[simp] theorem State.setLen_draws (x : BitVec 16) : (s.setLen x).draws = s.draws := rfl
@[simp] theorem State.setLen_slot (x : BitVec 16) (i : Slot) : (s.setLen x).slot i = s.slot i := rfl

/-! ### setDiskSig -/

@[simp] theorem State.setDiskSig_sector (x : Word) : (s.setDiskSig x).sector = s.sector := rfl
@[simp] theorem State.setDiskSig_cmd (x : Word) : (s.setDiskSig x).cmd = s.cmd := rfl
@[simp] theorem State.setDiskSig_status (x : Word) : (s.setDiskSig x).status = s.status := rfl
@[simp] theorem State.setDiskSig_len (x : Word) : (s.setDiskSig x).len = s.len := rfl
@[simp] theorem State.setDiskSig_diskSig (x : Word) : (s.setDiskSig x).diskSig = x := rfl
@[simp] theorem State.setDiskSig_diskSigValid (x : Word) : (s.setDiskSig x).diskSigValid = s.diskSigValid := rfl
@[simp] theorem State.setDiskSig_chs (x : Word) : (s.setDiskSig x).chs = s.chs := rfl
@[simp] theorem State.setDiskSig_chsPacked (x : Word) : (s.setDiskSig x).chsPacked = s.chsPacked := rfl
@[simp] theorem State.setDiskSig_lbaValue (x : Word) : (s.setDiskSig x).lbaValue = s.lbaValue := rfl
@[simp] theorem State.setDiskSig_lbaBytes (x : Word) : (s.setDiskSig x).lbaBytes = s.lbaBytes := rfl
@[simp] theorem State.setDiskSig_slots (x : Word) : (s.setDiskSig x).slots = s.slots := rfl
@[simp] theorem State.setDiskSig_inflight (x : Word) : (s.setDiskSig x).inflight = s.inflight := rfl
@[simp] theorem State.setDiskSig_port (x : Word) : (s.setDiskSig x).port = s.port := rfl
@[simp] theorem State.setDiskSig_reads (x : Word) : (s.setDiskSig x).reads = s.reads := rfl
@[simp] theorem State.setDiskSig_draws (x : Word) : (s.setDiskSig x).draws = s.draws := rfl
@[simp] theorem State.setDiskSig_slot (x : Word) (i : Slot) : (s.setDiskSig x).slot i = s.slot i := rfl

/-! ### setDiskSigValid -/

@[simp] theorem State.setDiskSigValid_sector (x : Bool) : (s.setDiskSigValid x).sector = s.sector := rfl
@[simp] theorem State.setDiskSigValid_cmd (x : Bool) : (s.setDiskSigValid x).cmd = s.cmd := rfl
@[simp] theorem State.setDiskSigValid_status (x : Bool) : (s.setDiskSigValid x).status = s.status := rfl
@[simp] theorem State.setDiskSigValid_len (x : Bool) : (s.setDiskSigValid x).len = s.len := rfl
@[simp] theorem State.setDiskSigValid_diskSig (x : Bool) : (s.setDiskSigValid x).diskSig = s.diskSig := rfl
@[simp] theorem State.setDiskSigValid_diskSigValid (x : Bool) : (s.setDiskSigValid x).diskSigValid = x := rfl
@[simp] theorem State.setDiskSigValid_chs (x : Bool) : (s.setDiskSigValid x).chs = s.chs := rfl
@[simp] theorem State.setDiskSigValid_chsPacked (x : Bool) : (s.setDiskSigValid x).chsPacked = s.chsPacked := rfl
@[simp] theorem State.setDiskSigValid_lbaValue (x : Bool) : (s.setDiskSigValid x).lbaValue = s.lbaValue := rfl
@[simp] theorem State.setDiskSigValid_lbaBytes (x : Bool) : (s.setDiskSigValid x).lbaBytes = s.lbaBytes := rfl
@[simp] theorem State.setDiskSigValid_slots (x : Bool) : (s.setDiskSigValid x).slots = s.slots := rfl
@[simp] theorem State.setDiskSigValid_inflight (x : Bool) : (s.setDiskSigValid x).inflight = s.inflight := rfl
@[simp] theorem State.setDiskSigValid_port (x : Bool) : (s.setDiskSigValid x).port = s.port := rfl
@[simp] theorem State.setDiskSigValid_reads (x : Bool) : (s.setDiskSigValid x).reads = s.reads := rfl
@[simp] theorem State.setDiskSigValid_draws (x : Bool) : (s.setDiskSigValid x).draws = s.draws := rfl
@[simp] theorem State.setDiskSigValid_slot (x : Bool) (i : Slot) : (s.setDiskSigValid x).slot i = s.slot i := rfl

/-! ### setChs -/

@[simp] theorem State.setChs_sector (x : Chs) : (s.setChs x).sector = s.sector := rfl
@[simp] theorem State.setChs_cmd (x : Chs) : (s.setChs x).cmd = s.cmd := rfl
@[simp] theorem State.setChs_status (x : Chs) : (s.setChs x).status = s.status := rfl
@[simp] theorem State.setChs_len (x : Chs) : (s.setChs x).len = s.len := rfl
@[simp] theorem State.setChs_diskSig (x : Chs) : (s.setChs x).diskSig = s.diskSig := rfl
@[simp] theorem State.setChs_diskSigValid (x : Chs) : (s.setChs x).diskSigValid = s.diskSigValid := rfl
@[simp] theorem State.setChs_chs (x : Chs) : (s.setChs x).chs = x := rfl
@[simp] theorem State.setChs_chsPacked (x : Chs) : (s.setChs x).chsPacked = s.chsPacked := rfl
@[simp] theorem State.setChs_lbaValue (x : Chs) : (s.setChs x).lbaValue = s.lbaValue := rfl
@[simp] theorem State.setChs_lbaBytes (x : Chs) : (s.setChs x).lbaBytes = s.lbaBytes := rfl
@[simp] theorem State.setChs_slots (x : Chs) : (s.setChs x).slots = s.slots := rfl
@[simp] theorem State.setChs_inflight (x : Chs) : (s.setChs x).inflight = s.inflight := rfl
@[simp] theorem State.setChs_port (x : Chs) : (s.setChs x).port = s.port := rfl
@[simp] theorem State.setChs_reads (x : Chs) : (s.setChs x).reads = s.reads := rfl
@[simp] theorem State.setChs_draws (x : Chs) : (s.setChs x).draws = s.draws := rfl
@[simp] theorem State.setChs_slot (x : Chs) (i : Slot) : (s.setChs x).slot i = s.slot i := rfl

/-! ### setChsPacked -/

@[simp] theorem State.setChsPacked_sector (x : BitVec 24) : (s.setChsPacked x).sector = s.sector := rfl
@[simp] theorem State.setChsPacked_cmd (x : BitVec 24) : (s.setChsPacked x).cmd = s.cmd := rfl
@[simp] theorem State.setChsPacked_status (x : BitVec 24) : (s.setChsPacked x).status = s.status := rfl
@[simp] theorem State.setChsPacked_len (x : BitVec 24) : (s.setChsPacked x).len = s.len := rfl
@[simp] theorem State.setChsPacked_diskSig (x : BitVec 24) : (s.setChsPacked x).diskSig = s.diskSig := rfl
@[simp] theorem State.setChsPacked_diskSigValid (x : BitVec 24) : (s.setChsPacked x).diskSigValid = s.diskSigValid := rfl
@[simp] theorem State.setChsPacked_chs (x : BitVec 24) : (s.setChsPacked x).chs = s.chs := rfl
@[simp] theorem State.setChsPacked_chsPacked (x : BitVec 24) : (s.setChsPacked x).chsPacked = x := rfl
@[simp] theorem State.setChsPacked_lbaValue (x : BitVec 24) : (s.setChsPacked x).lbaValue = s.lbaValue := rfl
@[simp] theorem State.setChsPacked_lbaBytes (x : BitVec 24) : (s.setChsPacked x).lbaBytes = s.lbaBytes := rfl
@[simp] theorem State.setChsPacked_slots (x : BitVec 24) : (s.setChsPacked x).slots = s.slots := rfl
@[simp] theorem State.setChsPacked_inflight (x : BitVec 24) : (s.setChsPacked x).inflight = s.inflight := rfl
@[simp] theorem State.setChsPacked_port (x : BitVec 24) : (s.setChsPacked x).port = s.port := rfl
@[simp] theorem State.setChsPacked_reads (x : BitVec 24) : (s.setChsPacked x).reads = s.reads := rfl
@[simp] theorem State.setChsPacked_draws (x : BitVec 24) : (s.setChsPacked x).draws = s.draws := rfl
@[simp] theorem State.setChsPacked_slot (x : BitVec 24) (i : Slot) : (s.setChsPacked x).slot i = s.slot i := rfl

/-! ### setLbaValue -/

@[simp] theorem State.setLbaValue_sector (x : Word) : (s.setLbaValue x).sector = s.sector := rfl
@[simp] theorem State.setLbaValue_cmd (x : Word) : (s.setLbaValue x).cmd = s.cmd := rfl
@[simp] theorem State.setLbaValue_status (x : Word) : (s.setLbaValue x).status = s.status := rfl
@[simp] theorem State.setLbaValue_len (x : Word) : (s.setLbaValue x).len = s.len := rfl
@[simp] theorem State.setLbaValue_diskSig (x : Word) : (s.setLbaValue x).diskSig = s.diskSig := rfl
@[simp] theorem State.setLbaValue_diskSigValid (x : Word) : (s.setLbaValue x).diskSigValid = s.diskSigValid := rfl
@[simp] theorem State.setLbaValue_chs (x : Word) : (s.setLbaValue x).chs = s.chs := rfl
@[simp] theorem State.setLbaValue_chsPacked (x : Word) : (s.setLbaValue x).chsPacked = s.chsPacked := rfl
@[simp] theorem State.setLbaValue_lbaValue (x : Word) : (s.setLbaValue x).lbaValue = x := rfl
@[simp] theorem State.setLbaValue_lbaBytes (x : Word) : (s.setLbaValue x).lbaBytes = s.lbaBytes := rfl
@[simp] theorem State.setLbaValue_slots (x : Word) : (s.setLbaValue x).slots = s.slots := rfl
@[simp] theorem State.setLbaValue_inflight (x : Word) : (s.setLbaValue x).inflight = s.inflight := rfl
@[simp] theorem State.setLbaValue_port (x : Word) : (s.setLbaValue x).port = s.port := rfl
@[simp] theorem State.setLbaValue_reads (x : Word) : (s.setLbaValue x).reads = s.reads := rfl
@[simp] theorem State.setLbaValue_draws (x : Word) : (s.setLbaValue x).draws = s.draws := rfl
@[simp] theorem State.setLbaValue_slot (x : Word) (i : Slot) : (s.setLbaValue x).slot i = s.slot i := rfl

/-! ### setLbaBytes -/

@[simp] theorem State.setLbaBytes_sector (x : Word) : (s.setLbaBytes x).sector = s.sector := rfl
@[simp] theorem State.setLbaBytes_cmd (x : Word) : (s.setLbaBytes x).cmd = s.cmd := rfl
@[simp] theorem State.setLbaBytes_status (x : Word) : (s.setLbaBytes x).status = s.status := rfl
@[simp] theorem State.setLbaBytes_len (x : Word) : (s.setLbaBytes x).len = s.len := rfl
@[simp] theorem State.setLbaBytes_diskSig (x : Word) : (s.setLbaBytes x).diskSig = s.diskSig := rfl
@[simp] theorem State.setLbaBytes_diskSigValid (x : Word) : (s.setLbaBytes x).diskSigValid = s.diskSigValid := rfl
@[simp] theorem State.setLbaBytes_chs (x : Word) : (s.setLbaBytes x).chs = s.chs := rfl
@[simp] theorem State.setLbaBytes_chsPacked (x : Word) : (s.setLbaBytes x).chsPacked = s.chsPacked := rfl
@[simp] theorem State.setLbaBytes_lbaValue (x : Word) : (s.setLbaBytes x).lbaValue = s.lbaValue := rfl
@[simp] theorem State.setLbaBytes_lbaBytes (x : Word) : (s.setLbaBytes x).lbaBytes = x := rfl
@[simp] theorem State.setLbaBytes_slots (x : Word) : (s.setLbaBytes x).slots = s.slots := rfl
@[simp] theorem State.setLbaBytes_inflight (x : Word) : (s.setLbaBytes x).inflight = s.inflight := rfl
@[simp] theorem State.setLbaBytes_port (x : Word) : (s.setLbaBytes x).port = s.port := rfl
@[simp] theorem State.setLbaBytes_reads (x : Word) : (s.setLbaBytes x).reads = s.reads := rfl
@[simp] theorem State.setLbaBytes_draws (x : Word) : (s.setLbaBytes x).draws = s.draws := rfl
@[simp] theorem State.setLbaBytes_slot (x : Word) (i : Slot) : (s.setLbaBytes x).slot i = s.slot i := rfl

/-! ### setSlots -/

@[simp] theorem State.setSlots_sector (x : SlotBank) : (s.setSlots x).sector = s.sector := rfl
@[simp] theorem State.setSlots_cmd (x : SlotBank) : (s.setSlots x).cmd = s.cmd := rfl
@[simp] theorem State.setSlots_status (x : SlotBank) : (s.setSlots x).status = s.status := rfl
@[simp] theorem State.setSlots_len (x : SlotBank) : (s.setSlots x).len = s.len := rfl
@[simp] theorem State.setSlots_diskSig (x : SlotBank) : (s.setSlots x).diskSig = s.diskSig := rfl
@[simp] theorem State.setSlots_diskSigValid (x : SlotBank) : (s.setSlots x).diskSigValid = s.diskSigValid := rfl
@[simp] theorem State.setSlots_chs (x : SlotBank) : (s.setSlots x).chs = s.chs := rfl
@[simp] theorem State.setSlots_chsPacked (x : SlotBank) : (s.setSlots x).chsPacked = s.chsPacked := rfl
@[simp] theorem State.setSlots_lbaValue (x : SlotBank) : (s.setSlots x).lbaValue = s.lbaValue := rfl
@[simp] theorem State.setSlots_lbaBytes (x : SlotBank) : (s.setSlots x).lbaBytes = s.lbaBytes := rfl
@[simp] theorem State.setSlots_slots (x : SlotBank) : (s.setSlots x).slots = x := rfl
@[simp] theorem State.setSlots_inflight (x : SlotBank) : (s.setSlots x).inflight = s.inflight := rfl
@[simp] theorem State.setSlots_port (x : SlotBank) : (s.setSlots x).port = s.port := rfl
@[simp] theorem State.setSlots_reads (x : SlotBank) : (s.setSlots x).reads = s.reads := rfl
@[simp] theorem State.setSlots_draws (x : SlotBank) : (s.setSlots x).draws = s.draws := rfl

/-! ### setInflight -/

@[simp] theorem State.setInflight_sector (x : Option InFlight) : (s.setInflight x).sector = s.sector := rfl
@[simp] theorem State.setInflight_cmd (x : Option InFlight) : (s.setInflight x).cmd = s.cmd := rfl
@[simp] theorem State.setInflight_status (x : Option InFlight) : (s.setInflight x).status = s.status := rfl
@[simp] theorem State.setInflight_len (x : Option InFlight) : (s.setInflight x).len = s.len := rfl
@[simp] theorem State.setInflight_diskSig (x : Option InFlight) : (s.setInflight x).diskSig = s.diskSig := rfl
@[simp] theorem State.setInflight_diskSigValid (x : Option InFlight) : (s.setInflight x).diskSigValid = s.diskSigValid := rfl
@[simp] theorem State.setInflight_chs (x : Option InFlight) : (s.setInflight x).chs = s.chs := rfl
@[simp] theorem State.setInflight_chsPacked (x : Option InFlight) : (s.setInflight x).chsPacked = s.chsPacked := rfl
@[simp] theorem State.setInflight_lbaValue (x : Option InFlight) : (s.setInflight x).lbaValue = s.lbaValue := rfl
@[simp] theorem State.setInflight_lbaBytes (x : Option InFlight) : (s.setInflight x).lbaBytes = s.lbaBytes := rfl
@[simp] theorem State.setInflight_slots (x : Option InFlight) : (s.setInflight x).slots = s.slots := rfl
@[simp] theorem State.setInflight_inflight (x : Option InFlight) : (s.setInflight x).inflight = x := rfl
@[simp] theorem State.setInflight_port (x : Option InFlight) : (s.setInflight x).port = s.port := rfl
@[simp] theorem State.setInflight_reads (x : Option InFlight) : (s.setInflight x).reads = s.reads := rfl
@[simp] theorem State.setInflight_draws (x : Option InFlight) : (s.setInflight x).draws = s.draws := rfl
@[simp] theorem State.setInflight_slot (x : Option InFlight) (i : Slot) : (s.setInflight x).slot i = s.slot i := rfl

/-! ### setPort -/

@[simp] theorem State.setPort_sector (x : List PortCycle) : (s.setPort x).sector = s.sector := rfl
@[simp] theorem State.setPort_cmd (x : List PortCycle) : (s.setPort x).cmd = s.cmd := rfl
@[simp] theorem State.setPort_status (x : List PortCycle) : (s.setPort x).status = s.status := rfl
@[simp] theorem State.setPort_len (x : List PortCycle) : (s.setPort x).len = s.len := rfl
@[simp] theorem State.setPort_diskSig (x : List PortCycle) : (s.setPort x).diskSig = s.diskSig := rfl
@[simp] theorem State.setPort_diskSigValid (x : List PortCycle) : (s.setPort x).diskSigValid = s.diskSigValid := rfl
@[simp] theorem State.setPort_chs (x : List PortCycle) : (s.setPort x).chs = s.chs := rfl
@[simp] theorem State.setPort_chsPacked (x : List PortCycle) : (s.setPort x).chsPacked = s.chsPacked := rfl
@[simp] theorem State.setPort_lbaValue (x : List PortCycle) : (s.setPort x).lbaValue = s.lbaValue := rfl
@[simp] theorem State.setPort_lbaBytes (x : List PortCycle) : (s.setPort x).lbaBytes = s.lbaBytes := rfl
@[simp] theorem State.setPort_slots (x : List PortCycle) : (s.setPort x).slots = s.slots := rfl
@[simp] theorem State.setPort_inflight (x : List PortCycle) : (s.setPort x).inflight = s.inflight := rfl
@[simp] theorem State.setPort_port (x : List PortCycle) : (s.setPort x).port = x := rfl
@[simp] theorem State.setPort_reads (x : List PortCycle) : (s.setPort x).reads = s.reads := rfl
@[simp] theorem State.setPort_draws (x : List PortCycle) : (s.setPort x).draws = s.draws := rfl
@[simp] theorem State.setPort_slot (x : List PortCycle) (i : Slot) : (s.setPort x).slot i = s.slot i := rfl

/-! ### setReads -/

@[simp] theorem State.setReads_sector (x : List Word) : (s.setReads x).sector = s.sector := rfl
@[simp] theorem State.setReads_cmd (x : List Word) : (s.setReads x).cmd = s.cmd := rfl
@[simp] theorem State.setReads_status (x : List Word) : (s.setReads x).status = s.status := rfl
@[simp] theorem State.setReads_len (x : List Word) : (s.setReads x).len = s.len := rfl
@[simp] theorem State.setReads_diskSig (x : List Word) : (s.setReads x).diskSig = s.diskSig := rfl
@[simp] theorem State.setReads_diskSigValid (x : List Word) : (s.setReads x).diskSigValid = s.diskSigValid := rfl
@[simp] theorem State.setReads_chs (x : List Word) : (s.setReads x).chs = s.chs := rfl
@[simp] theorem State.setReads_chsPacked (x : List Word) : (s.setReads x).chsPacked = s.chsPacked := rfl
@[simp] theorem State.setReads_lbaValue (x : List Word) : (s.setReads x).lbaValue = s.lbaValue := rfl
@[simp] theorem State.setReads_lbaBytes (x : List Word) : (s.setReads x).lbaBytes = s.lbaBytes := rfl
@[simp] theorem State.setReads_slots (x : List Word) : (s.setReads x).slots = s.slots := rfl
@[simp] theorem State.setReads_inflight (x : List Word) : (s.setReads x).inflight = s.inflight := rfl
@[simp] theorem State.setReads_port (x : List Word) : (s.setReads x).port = s.port := rfl
@[simp] theorem State.setReads_reads (x : List Word) : (s.setReads x).reads = x := rfl
@[simp] theorem State.setReads_draws (x : List Word) : (s.setReads x).draws = s.draws := rfl
@[simp] theorem State.setReads_slot (x : List Word) (i : Slot) : (s.setReads x).slot i = s.slot i := rfl

/-! ### setDraws -/

@[simp] theorem State.setDraws_sector (x : Nat) : (s.setDraws x).sector = s.sector := rfl
@[simp] theorem State.setDraws_cmd (x : Nat) : (s.setDraws x).cmd = s.cmd := rfl
@[simp] theorem State.setDraws_status (x : Nat) : (s.setDraws x).status = s.status := rfl
@[simp] theorem State.setDraws_len (x : Nat) : (s.setDraws x).len = s.len := rfl
@[simp] theorem State.setDraws_diskSig (x : Nat) : (s.setDraws x).diskSig = s.diskSig := rfl
@[simp] theorem State.setDraws_diskSigValid (x : Nat) : (s.setDraws x).diskSigValid = s.diskSigValid := rfl
@[simp] theorem State.setDraws_chs (x : Nat) : (s.setDraws x).chs = s.chs := rfl
@[simp] theorem State.setDraws_chsPacked (x : Nat) : (s.setDraws x).chsPacked = s.chsPacked := rfl
@[simp] theorem State.setDraws_lbaValue (x : Nat) : (s.setDraws x).lbaValue = s.lbaValue := rfl
@[simp] theorem State.setDraws_lbaBytes (x : Nat) : (s.setDraws x).lbaBytes = s.lbaBytes := rfl
@[simp] theorem State.setDraws_slots (x : Nat) : (s.setDraws x).slots = s.slots := rfl
@[simp] theorem State.setDraws_inflight (x : Nat) : (s.setDraws x).inflight = s.inflight := rfl
@[simp] theorem State.setDraws_port (x : Nat) : (s.setDraws x).port = s.port := rfl
@[simp] theorem State.setDraws_reads (x : Nat) : (s.setDraws x).reads = s.reads := rfl
@[simp] theorem State.setDraws_draws (x : Nat) : (s.setDraws x).draws = x := rfl
@[simp] theorem State.setDraws_slot (x : Nat) (i : Slot) : (s.setDraws x).slot i = s.slot i := rfl

/-! ### setSlot -/

@[simp] theorem State.setSlot_sector (i : Slot) (e : SlotBlock) : (s.setSlot i e).sector = s.sector := rfl
@[simp] theorem State.setSlot_cmd (i : Slot) (e : SlotBlock) : (s.setSlot i e).cmd = s.cmd := rfl
@[simp] theorem State.setSlot_status (i : Slot) (e : SlotBlock) : (s.setSlot i e).status = s.status := rfl
@[simp] theorem State.setSlot_len (i : Slot) (e : SlotBlock) : (s.setSlot i e).len = s.len := rfl
@[simp] theorem State.setSlot_diskSig (i : Slot) (e : SlotBlock) : (s.setSlot i e).diskSig = s.diskSig := rfl
@[simp] theorem State.setSlot_diskSigValid (i : Slot) (e : SlotBlock) : (s.setSlot i e).diskSigValid = s.diskSigValid := rfl
@[simp] theorem State.setSlot_chs (i : Slot) (e : SlotBlock) : (s.setSlot i e).chs = s.chs := rfl
@[simp] theorem State.setSlot_chsPacked (i : Slot) (e : SlotBlock) : (s.setSlot i e).chsPacked = s.chsPacked := rfl
@[simp] theorem State.setSlot_lbaValue (i : Slot) (e : SlotBlock) : (s.setSlot i e).lbaValue = s.lbaValue := rfl
@[simp] theorem State.setSlot_lbaBytes (i : Slot) (e : SlotBlock) : (s.setSlot i e).lbaBytes = s.lbaBytes := rfl
@[simp] theorem State.setSlot_slots (i : Slot) (e : SlotBlock) : (s.setSlot i e).slots = s.slots.set i e := rfl
@[simp] theorem State.setSlot_inflight (i : Slot) (e : SlotBlock) : (s.setSlot i e).inflight = s.inflight := rfl
@[simp] theorem State.setSlot_port (i : Slot) (e : SlotBlock) : (s.setSlot i e).port = s.port := rfl
@[simp] theorem State.setSlot_reads (i : Slot) (e : SlotBlock) : (s.setSlot i e).reads = s.reads := rfl
@[simp] theorem State.setSlot_draws (i : Slot) (e : SlotBlock) : (s.setSlot i e).draws = s.draws := rfl

/-! ### complete -/

@[simp] theorem State.complete_sector (r : ResultCode) (b : Bool) (info : RangeInfo) : (s.complete r b info).sector = s.sector := rfl
@[simp] theorem State.complete_cmd (r : ResultCode) (b : Bool) (info : RangeInfo) : (s.complete r b info).cmd = s.cmd := rfl
@[simp] theorem State.complete_status (r : ResultCode) (b : Bool) (info : RangeInfo) :
    (s.complete r b info).status = { result := r.code, sigOk := b, range := info, ovr := s.status.ovr } := rfl
@[simp] theorem State.complete_len (r : ResultCode) (b : Bool) (info : RangeInfo) : (s.complete r b info).len = s.len := rfl
@[simp] theorem State.complete_diskSig (r : ResultCode) (b : Bool) (info : RangeInfo) : (s.complete r b info).diskSig = s.diskSig := rfl
@[simp] theorem State.complete_diskSigValid (r : ResultCode) (b : Bool) (info : RangeInfo) : (s.complete r b info).diskSigValid = s.diskSigValid := rfl
@[simp] theorem State.complete_chs (r : ResultCode) (b : Bool) (info : RangeInfo) : (s.complete r b info).chs = s.chs := rfl
@[simp] theorem State.complete_chsPacked (r : ResultCode) (b : Bool) (info : RangeInfo) : (s.complete r b info).chsPacked = s.chsPacked := rfl
@[simp] theorem State.complete_lbaValue (r : ResultCode) (b : Bool) (info : RangeInfo) : (s.complete r b info).lbaValue = s.lbaValue := rfl
@[simp] theorem State.complete_lbaBytes (r : ResultCode) (b : Bool) (info : RangeInfo) : (s.complete r b info).lbaBytes = s.lbaBytes := rfl
@[simp] theorem State.complete_slots (r : ResultCode) (b : Bool) (info : RangeInfo) : (s.complete r b info).slots = s.slots := rfl
@[simp] theorem State.complete_inflight (r : ResultCode) (b : Bool) (info : RangeInfo) : (s.complete r b info).inflight = none := rfl
@[simp] theorem State.complete_port (r : ResultCode) (b : Bool) (info : RangeInfo) : (s.complete r b info).port = s.port := rfl
@[simp] theorem State.complete_reads (r : ResultCode) (b : Bool) (info : RangeInfo) : (s.complete r b info).reads = s.reads := rfl
@[simp] theorem State.complete_draws (r : ResultCode) (b : Bool) (info : RangeInfo) : (s.complete r b info).draws = s.draws := rfl
@[simp] theorem State.complete_slot (r : ResultCode) (b : Bool) (info : RangeInfo) (i : Slot) : (s.complete r b info).slot i = s.slot i := rfl
@[simp] theorem State.complete_busy (r : ResultCode) (b : Bool) (info : RangeInfo) : (s.complete r b info).busy = false := rfl

/-! ### popPort and setOvr -/

@[simp] theorem State.popPort_sector : s.popPort.sector = s.sector := rfl
@[simp] theorem State.popPort_cmd : s.popPort.cmd = s.cmd := rfl
@[simp] theorem State.popPort_status : s.popPort.status = s.status := rfl
@[simp] theorem State.popPort_len : s.popPort.len = s.len := rfl
@[simp] theorem State.popPort_diskSig : s.popPort.diskSig = s.diskSig := rfl
@[simp] theorem State.popPort_diskSigValid : s.popPort.diskSigValid = s.diskSigValid := rfl
@[simp] theorem State.popPort_chs : s.popPort.chs = s.chs := rfl
@[simp] theorem State.popPort_chsPacked : s.popPort.chsPacked = s.chsPacked := rfl
@[simp] theorem State.popPort_lbaValue : s.popPort.lbaValue = s.lbaValue := rfl
@[simp] theorem State.popPort_lbaBytes : s.popPort.lbaBytes = s.lbaBytes := rfl
@[simp] theorem State.popPort_slots : s.popPort.slots = s.slots := rfl
@[simp] theorem State.popPort_inflight : s.popPort.inflight = s.inflight := rfl
@[simp] theorem State.popPort_port : s.popPort.port = s.port.tail := rfl
@[simp] theorem State.popPort_reads : s.popPort.reads = s.reads := rfl
@[simp] theorem State.popPort_draws : s.popPort.draws = s.draws := rfl
@[simp] theorem State.setOvr_sector : s.setOvr.sector = s.sector := rfl
@[simp] theorem State.setOvr_cmd : s.setOvr.cmd = s.cmd := rfl
@[simp] theorem State.setOvr_status : s.setOvr.status = { s.status with ovr := true } := rfl
@[simp] theorem State.setOvr_len : s.setOvr.len = s.len := rfl
@[simp] theorem State.setOvr_diskSig : s.setOvr.diskSig = s.diskSig := rfl
@[simp] theorem State.setOvr_diskSigValid : s.setOvr.diskSigValid = s.diskSigValid := rfl
@[simp] theorem State.setOvr_chs : s.setOvr.chs = s.chs := rfl
@[simp] theorem State.setOvr_chsPacked : s.setOvr.chsPacked = s.chsPacked := rfl
@[simp] theorem State.setOvr_lbaValue : s.setOvr.lbaValue = s.lbaValue := rfl
@[simp] theorem State.setOvr_lbaBytes : s.setOvr.lbaBytes = s.lbaBytes := rfl
@[simp] theorem State.setOvr_slots : s.setOvr.slots = s.slots := rfl
@[simp] theorem State.setOvr_inflight : s.setOvr.inflight = s.inflight := rfl
@[simp] theorem State.setOvr_port : s.setOvr.port = s.port := rfl
@[simp] theorem State.setOvr_reads : s.setOvr.reads = s.reads := rfl
@[simp] theorem State.setOvr_draws : s.setOvr.draws = s.draws := rfl

/-! ### The slot bank -/

/-- A slot block reads back as written, and the other three are as before. -/
@[simp] theorem SlotBank.get_set (b : SlotBank) (i k : Slot) (e : SlotBlock) :
    (b.set i e).get k = if k = i then e else b.get k := by
  fin_cases i <;> fin_cases k <;> rfl

/-- Writing back the block that a bank holds changes nothing. -/
@[simp] theorem SlotBank.set_get (b : SlotBank) (i : Slot) : b.set i (b.get i) = b := by
  fin_cases i <;> rfl

/-- Two banks with the same four blocks are equal. -/
theorem SlotBank.ext_get {b c : SlotBank} (h : ∀ i, b.get i = c.get i) : b = c := by
  have h0 := h 0; have h1 := h 1; have h2 := h 2; have h3 := h 3
  cases b; cases c
  simp only [SlotBank.get] at h0 h1 h2 h3
  simp [h0, h1, h2, h3]

@[simp] theorem State.setSlot_slot (i k : Slot) (e : SlotBlock) :
    (s.setSlot i e).slot k = if k = i then e else s.slot k :=
  SlotBank.get_set s.slots i k e

end Sys2Proof.Machine
end

