-- ==== Sys2Proof/Laws/Memory.lean ====
section
/-! SUPPORT. The sector buffer: reads after writes, and the canonical form that every operation keeps.
Equal contents in canonical form are equal data (`Memory.ext_read`). -/

namespace Sys2Proof.Machine

/-- Addresses strictly rising, the part of the canonical form that reads depend on. -/
abbrev Memory.Rising (m : Memory) : Prop := m.Pairwise (fun c d => c.1 < d.1)

theorem Memory.wf_nil : Memory.wf [] := by simp [Memory.wf]

@[simp] theorem Memory.read_nil (a : Nat) : Memory.read [] a = 0#8 := rfl

theorem Memory.read_cons (k : Nat) (v : Byte) (m : Memory) (a : Nat) :
    Memory.read ((k, v) :: m) a = if k = a then v else Memory.read m a := rfl

/-- An address below every listed one reads as blank. -/
theorem Memory.read_of_lt {m : Memory} {a : Nat} (h : ∀ c ∈ m, a < c.1) : m.read a = 0#8 := by
  induction m with
  | nil => rfl
  | cons c m ih =>
    have hc := h c (by simp)
    rw [Memory.read_cons, if_neg (by omega)]
    exact ih fun d hd => h d (by simp [hd])

theorem Memory.read_put_ne {a x : Nat} (b : Byte) (m : Memory) (h : x ≠ a) :
    (Memory.put a b m).read x = m.read x := by
  unfold Memory.put
  split
  · rfl
  · rw [Memory.read_cons, if_neg (Ne.symm h)]

theorem Memory.read_put_self {a : Nat} (b : Byte) {m : Memory} (h : m.read a = 0#8) :
    (Memory.put a b m).read a = b := by
  unfold Memory.put
  split
  · next hb => rw [h, hb]; rfl
  · simp [Memory.read_cons]

/-- A write leaves every other byte alone. -/
theorem Memory.read_write_ne (m : Memory) {a x : Nat} (b : Byte) (h : x ≠ a) :
    (m.write a b).read x = m.read x := by
  induction m with
  | nil => exact Memory.read_put_ne b [] h
  | cons c m ih =>
    obtain ⟨k, v⟩ := c
    simp only [Memory.write]
    split
    · simp only [Memory.read_cons, ih]
    · split
      · next hk => rw [Memory.read_put_ne b m h, Memory.read_cons, if_neg (by omega)]
      · exact Memory.read_put_ne b _ h

/-- A byte reads back as written. -/
theorem Memory.read_write_self {m : Memory} (hm : m.Rising) (a : Nat) (b : Byte) :
    (m.write a b).read a = b := by
  induction m with
  | nil => exact Memory.read_put_self b rfl
  | cons c m ih =>
    obtain ⟨k, v⟩ := c
    obtain ⟨hk, hm⟩ := List.pairwise_cons.mp hm
    simp only [Memory.write]
    split
    · next hlt => rw [Memory.read_cons, if_neg (by omega)]; exact ih hm
    · split
      · next heq =>
        exact Memory.read_put_self b (Memory.read_of_lt fun d hd => by have := hk d hd; simp at this; omega)
      · next hge hne =>
        refine Memory.read_put_self b (Memory.read_of_lt fun d hd => ?_)
        rcases List.mem_cons.mp hd with rfl | hd
        · simp; omega
        · have := hk d hd; simp at this; omega

theorem Memory.read_write {m : Memory} (hm : m.Rising) (a x : Nat) (b : Byte) :
    (m.write a b).read x = if x = a then b else m.read x := by
  split
  · next h => rw [h]; exact Memory.read_write_self hm a b
  · next h => exact Memory.read_write_ne m b h

/-- Where a listed byte may come from after a write. -/
theorem Memory.mem_write {m : Memory} {a : Nat} {b : Byte} {c : Host.Cell} (h : c ∈ m.write a b) :
    c ∈ m ∨ (c = (a, b) ∧ b ≠ blankByte) := by
  have put_cases : ∀ {n : Memory}, c ∈ Memory.put a b n → c ∈ n ∨ (c = (a, b) ∧ b ≠ blankByte) := by
    intro n hn
    unfold Memory.put at hn
    split at hn
    · exact .inl hn
    · next hb => rcases List.mem_cons.mp hn with rfl | hn
                 · exact .inr ⟨rfl, hb⟩
                 · exact .inl hn
  induction m with
  | nil => exact put_cases h
  | cons d m ih =>
    obtain ⟨k, v⟩ := d
    simp only [Memory.write] at h
    split at h
    · rcases List.mem_cons.mp h with rfl | h
      · exact .inl (by simp)
      · rcases ih h with h | h
        · exact .inl (by simp [h])
        · exact .inr h
    · split at h
      · rcases put_cases h with h | h
        · exact .inl (by simp [h])
        · exact .inr h
      · exact put_cases h

theorem Memory.rising_put {m : Memory} {a : Nat} (b : Byte) (hm : m.Rising) (h : ∀ c ∈ m, a < c.1) :
    (Memory.put a b m).Rising := by
  unfold Memory.put
  split
  · exact hm
  · exact List.pairwise_cons.mpr ⟨fun c hc => h c hc, hm⟩

theorem Memory.rising_write {m : Memory} (hm : m.Rising) (a : Nat) (b : Byte) : (m.write a b).Rising := by
  induction m with
  | nil => exact Memory.rising_put b .nil (by simp)
  | cons c m ih =>
    obtain ⟨k, v⟩ := c
    obtain ⟨hk, hm'⟩ := List.pairwise_cons.mp hm
    simp only [Memory.write]
    split
    · next hlt =>
      refine List.pairwise_cons.mpr ⟨fun d hd => ?_, ih hm'⟩
      rcases Memory.mem_write hd with hd | ⟨rfl, -⟩
      · exact hk d hd
      · exact hlt
    · split
      · next heq => subst heq; exact Memory.rising_put b hm' hk
      · next hge hne =>
        refine Memory.rising_put b hm fun d hd => ?_
        rcases List.mem_cons.mp hd with rfl | hd
        · simp; omega
        · have := hk d hd; simp at this; omega

/-- A write inside SECTOR keeps the canonical form. -/
theorem Memory.wf_write {m : Memory} (hm : m.wf) {a : Nat} (ha : a < 512) (b : Byte) :
    (m.write a b).wf := by
  refine ⟨Memory.rising_write hm.1 a b, fun c hc => ?_⟩
  rcases Memory.mem_write hc with hc | ⟨rfl, hb⟩
  · exact hm.2 c hc
  · exact ⟨hb, ha⟩

theorem Memory.rising_writeBytes {m : Memory} (hm : m.Rising) (a : Nat) (bs : List Byte) :
    (m.writeBytes a bs).Rising := by
  induction bs generalizing m a with
  | nil => exact hm
  | cons b bs ih => exact ih (Memory.rising_write hm a b) (a + 1)

/-- Bytes stored inside SECTOR keep the canonical form. -/
theorem Memory.wf_writeBytes {m : Memory} (hm : m.wf) {a : Nat} {bs : List Byte} (h : a + bs.length ≤ 512) :
    (m.writeBytes a bs).wf := by
  induction bs generalizing m a with
  | nil => exact hm
  | cons b bs ih =>
    simp only [List.length_cons] at h
    exact ih (Memory.wf_write hm (by omega) b) (by omega)

/-- Bytes outside the stored ones read as before. -/
theorem Memory.read_writeBytes_of_not_mem (m : Memory) {a x : Nat} {bs : List Byte}
    (h : x < a ∨ a + bs.length ≤ x) : (m.writeBytes a bs).read x = m.read x := by
  induction bs generalizing m a with
  | nil => rfl
  | cons b bs ih =>
    simp only [List.length_cons] at h
    rw [Memory.writeBytes, ih (m.write a b) (by omega), Memory.read_write_ne m b (by omega)]

/-- Stored bytes read back in order. -/
theorem Memory.read_writeBytes {m : Memory} (hm : m.Rising) (a : Nat) {bs : List Byte} {k : Nat}
    (hk : k < bs.length) : (m.writeBytes a bs).read (a + k) = bs[k] := by
  induction bs generalizing m a k with
  | nil => simp at hk
  | cons b bs ih =>
    rw [Memory.writeBytes]
    cases k with
    | zero =>
      rw [Memory.read_writeBytes_of_not_mem _ (by omega)]
      exact Memory.read_write_self hm a b
    | succ k =>
      have := ih (Memory.rising_write hm a b) (a + 1) (k := k) (by simpa using hk)
      rw [show a + (k + 1) = a + 1 + k by omega, this]
      rfl

/-- Two sector buffers in canonical form with the same contents are the same data. -/
theorem Memory.ext_read {m n : Memory} (hm : m.wf) (hn : n.wf) (h : ∀ a, m.read a = n.read a) : m = n := by
  induction m generalizing n with
  | nil =>
    cases n with
    | nil => rfl
    | cons d n =>
      have := h d.1
      rw [Memory.read_nil, Memory.read_cons, if_pos rfl] at this
      exact absurd this.symm (hn.2 d (by simp)).1
  | cons c m ih =>
    obtain ⟨k, v⟩ := c
    cases n with
    | nil =>
      have := h k
      rw [Memory.read_nil, Memory.read_cons, if_pos rfl] at this
      exact absurd this (hm.2 (k, v) (by simp)).1
    | cons d n =>
      obtain ⟨l, w⟩ := d
      obtain ⟨hk, hm'⟩ := List.pairwise_cons.mp hm.1
      obtain ⟨hl, hn'⟩ := List.pairwise_cons.mp hn.1
      have hv : v ≠ 0#8 := (hm.2 (k, v) (by simp)).1
      have hw : w ≠ 0#8 := (hn.2 (l, w) (by simp)).1
      have lt_k : ∀ a, a < k → Memory.read ((k, v) :: m) a = 0#8 := fun a ha => by
        refine Memory.read_of_lt fun c hc => ?_
        rcases List.mem_cons.mp hc with rfl | hc
        · exact ha
        · have := hk c hc; simp at this; omega
      have lt_l : ∀ a, a < l → Memory.read ((l, w) :: n) a = 0#8 := fun a ha => by
        refine Memory.read_of_lt fun c hc => ?_
        rcases List.mem_cons.mp hc with rfl | hc
        · exact ha
        · have := hl c hc; simp at this; omega
      have hkl : k = l := by
        rcases Nat.lt_trichotomy k l with hlt | heq | hlt
        · have := h k
          rw [lt_l k hlt, Memory.read_cons, if_pos rfl] at this
          exact absurd this hv
        · exact heq
        · have := h l
          rw [lt_k l hlt, Memory.read_cons, if_pos rfl] at this
          exact absurd this.symm hw
      subst hkl
      have hvw : v = w := by have := h k; simpa [Memory.read_cons] using this
      subst hvw
      have htail : m = n := by
        refine ih ⟨hm', fun c hc => hm.2 c (by simp [hc])⟩ ⟨hn', fun c hc => hn.2 c (by simp [hc])⟩ fun a => ?_
        have := h a
        by_cases hka : k = a
        · subst hka
          rw [Memory.read_of_lt hk, Memory.read_of_lt hl]
        · simpa [Memory.read_cons, hka] using this
      rw [htail]

end Sys2Proof.Machine
end

