-- ==== Sys2Proof/Laws/Codec.lean ====
section
/-! SUPPORT. The format functions of the meanings against the arithmetic of Safety.lean: little-endian
words, packed CHS, partition entries, the fresh sector. One lemma per function. -/

namespace Sys2Proof.Machine

/-! ### Words and bytes -/

theorem toNat_append {m n : Nat} (x : BitVec m) (y : BitVec n) : (x ++ y).toNat = x.toNat * 2 ^ n + y.toNat := by
  rw [BitVec.toNat_append, ← Nat.shiftLeft_add_eq_or_of_lt y.isLt, Nat.shiftLeft_eq]

theorem le32_toNat (b0 b1 b2 b3 : Byte) : (le32 b0 b1 b2 b3).toNat = leNumber b0 b1 b2 b3 := by
  simp only [le32, leNumber, toNat_append]; omega

theorem byteOf_toNat (v : Word) (k : Nat) : (byteOf v k).toNat = leByte v k := by
  simp [byteOf, leByte, Nat.shiftRight_eq_div_pow]

theorem chsInRange_iff (c : Chs) : chsInRange c = true ↔ c.InRange := by
  simp [chsInRange, Chs.InRange, BitVec.le_def, and_assoc]

theorem rangeInfo_eq (c : Chs) (e : Bool) (i : Slot) : rangeInfo c e i = c.causes e i := by
  simp [rangeInfo, Chs.causes, BitVec.lt_def]

theorem chsUnpack_unpackedFrom (b0 b1 b2 : Byte) : (chsUnpack b0 b1 b2).UnpackedFrom b0 b1 b2 := by
  simp only [Chs.UnpackedFrom, chsUnpack, BitVec.toNat_setWidth, toNat_append, BitVec.extractLsb'_toNat, Nat.shiftRight_eq_div_pow]
  have := b0.isLt; have := b1.isLt; have := b2.isLt
  omega

theorem chsPackBytes_toNat {c : Chs} (h : c.InRange) :
  (chsByte0 c).toNat = c.packedByte 0 ∧ (chsByte1 c).toNat = c.packedByte 1 ∧ (chsByte2 c).toNat = c.packedByte 2 := by
  simp only [Chs.packedByte, chsByte0, chsByte1, chsByte2, toNat_append, BitVec.extractLsb'_toNat, Nat.shiftRight_eq_div_pow]
  unfold Chs.InRange at h
  omega

theorem Byte.bit7_eq (b : Byte) : b.getLsbD 7 = decide (128 ≤ b.toNat) := by
  revert b; decide

theorem chsUnpack_pack {c : Chs} (h : c.InRange) : chsUnpack (chsByte0 c) (chsByte1 c) (chsByte2 c) = c := by
  obtain ⟨h0, h1, h2⟩ := chsPackBytes_toNat h
  obtain ⟨e0, e1, e2⟩ := chsUnpack_unpackedFrom (chsByte0 c) (chsByte1 c) (chsByte2 c)
  rw [h0] at e0; rw [h1] at e1 e2; rw [h2] at e2
  simp only [Chs.packedByte] at e0 e1 e2
  unfold Chs.InRange at h
  have a : (chsUnpack (chsByte0 c) (chsByte1 c) (chsByte2 c)).cyl = c.cyl := BitVec.eq_of_toNat_eq (by omega)
  have b : (chsUnpack (chsByte0 c) (chsByte1 c) (chsByte2 c)).head = c.head := BitVec.eq_of_toNat_eq (by omega)
  have d : (chsUnpack (chsByte0 c) (chsByte1 c) (chsByte2 c)).sect = c.sect := BitVec.eq_of_toNat_eq (by omega)
  cases c; simp_all [chsUnpack]

theorem chsUnpack24_pack24 {c : Chs} (h : c.InRange) : chsUnpack24 (chsPack24 c) = c := by
  have h0 : (chsPack24 c).extractLsb' 0 8 = chsByte0 c := by
    apply BitVec.eq_of_toNat_eq
    simp only [chsPack24, BitVec.extractLsb'_toNat, toNat_append, Nat.shiftRight_eq_div_pow]
    have := (chsByte0 c).isLt; have := (chsByte1 c).isLt; omega
  have h1 : (chsPack24 c).extractLsb' 8 8 = chsByte1 c := by
    apply BitVec.eq_of_toNat_eq
    simp only [chsPack24, BitVec.extractLsb'_toNat, toNat_append, Nat.shiftRight_eq_div_pow]
    have := (chsByte0 c).isLt; have := (chsByte1 c).isLt; omega
  have h2 : (chsPack24 c).extractLsb' 16 8 = chsByte2 c := by
    apply BitVec.eq_of_toNat_eq
    simp only [chsPack24, BitVec.extractLsb'_toNat, toNat_append, Nat.shiftRight_eq_div_pow]
    have := (chsByte0 c).isLt; have := (chsByte1 c).isLt; have := (chsByte2 c).isLt; omega
  rw [chsUnpack24, h0, h1, h2, chsUnpack_pack h]

/-- A packed triple, lane by lane, as a number (41_chs.md R130). -/
theorem chsPack24_toNat {c : Chs} (h : c.InRange) :
    (chsPack24 c).toNat = c.packedByte 0 + 2 ^ 8 * c.packedByte 1 + 2 ^ 16 * c.packedByte 2 := by
  obtain ⟨h0, h1, h2⟩ := chsPackBytes_toNat h
  simp only [chsPack24, toNat_append, h0, h1, h2]
  omega

/-- Unpacked CHS values are always in range (41_chs.md R132). -/
theorem chsUnpack_inRange (b0 b1 b2 : Byte) : (chsUnpack b0 b1 b2).InRange := by
  obtain ⟨h0, h1, h2⟩ := chsUnpack_unpackedFrom b0 b1 b2
  have := b0.isLt; have := b1.isLt; have := b2.isLt
  unfold Chs.InRange
  omega

/-- Packing an unpacked triple gives its bytes back (41_chs.md R135). -/
theorem chsPackBytes_unpack (b0 b1 b2 : Byte) : chsPackBytes (chsUnpack b0 b1 b2) = [b0, b1, b2] := by
  obtain ⟨h0, h1, h2⟩ := chsUnpack_unpackedFrom b0 b1 b2
  obtain ⟨p0, p1, p2⟩ := chsPackBytes_toNat (chsUnpack_inRange b0 b1 b2)
  have := b0.isLt; have := b1.isLt; have := b2.isLt
  simp only [Chs.packedByte] at p0 p1 p2
  simp only [chsPackBytes, List.cons.injEq, and_true]
  exact ⟨BitVec.eq_of_toNat_eq (by omega), BitVec.eq_of_toNat_eq (by omega), BitVec.eq_of_toNat_eq (by omega)⟩

theorem le32_byteOf (v : Word) : le32 (byteOf v 0) (byteOf v 1) (byteOf v 2) (byteOf v 3) = v := by
  apply BitVec.eq_of_toNat_eq
  simp only [le32_toNat, leNumber, byteOf_toNat, leByte]
  have := v.isLt
  omega

theorem byteOf_le32 (b0 b1 b2 b3 : Byte) : bytesOf32 (le32 b0 b1 b2 b3) = [b0, b1, b2, b3] := by
  have := b0.isLt; have := b1.isLt; have := b2.isLt; have := b3.isLt
  have h : ∀ k, (byteOf (le32 b0 b1 b2 b3) k).toNat = leNumber b0 b1 b2 b3 / 2 ^ (8 * k) % 256 :=
    fun k => by rw [byteOf_toNat, leByte, le32_toNat]
  simp only [bytesOf32, List.cons.injEq, and_true]
  refine ⟨BitVec.eq_of_toNat_eq ?_, BitVec.eq_of_toNat_eq ?_, BitVec.eq_of_toNat_eq ?_, BitVec.eq_of_toNat_eq ?_⟩ <;>
    rw [h] <;> simp only [leNumber] <;> omega

@[simp] theorem bytesOf32_length (v : Word) : (bytesOf32 v).length = 4 := rfl

/-! ### Offsets and the boot signature -/

@[simp] theorem slotOffset_eq (i : Slot) : slotOffset i = entryOffset i := by
  fin_cases i <;> rfl

theorem entryOffset_eq (i : Slot) : entryOffset i = 0x1BE + 16 * i.val := by
  fin_cases i <;> rfl

theorem sigValid_iff (s : State) : sigValid s.sector = true ↔ s.Signed := by
  simp only [sigValid, Memory.read16, beq_iff_eq, State.Signed]
  constructor
  · intro h
    have h' := congrArg BitVec.toNat h
    simp only [toNat_append] at h'
    have := (s.sector.read 0x1FE).isLt; have := (s.sector.read 0x1FF).isLt
    simp only [show (0x1FE + 1 : Nat) = 0x1FF by rfl] at h'
    have e : (0xAA55#16).toNat = 43605 := rfl
    rw [e] at h'
    exact ⟨BitVec.eq_of_toNat_eq (by simp; omega), BitVec.eq_of_toNat_eq (by simp; omega)⟩
  · rintro ⟨h0, h1⟩
    rw [h0, show (0x1FE + 1 : Nat) = 0x1FF by rfl, h1]
    rfl

/-! ### Partition entries -/

/-- `entry_decode` gives every field of R171. -/
theorem entryDecode_decodedFrom (e : Nat → Byte) : (entryDecode e).DecodedFrom e :=
  ⟨rfl, Byte.bit7_eq _, rfl, rfl, rfl, chsUnpack_unpackedFrom _ _ _, chsUnpack_unpackedFrom _ _ _,
    le32_toNat _ _ _ _, le32_toNat _ _ _ _⟩

/-- The bytes of one CHS field that does not fail. -/
theorem chsFieldBytes_ok {p : Bool} {c : Chs} (e : Bool) (i : Slot) (h : p = true → c.InRange) :
    chsFieldBytes p c e i = .ok (if p then chsPackBytes c else [0x00#8, 0x00#8, 0x00#8]) := by
  cases p with
  | false => rfl
  | true => simp [chsFieldBytes, (chsInRange_iff c).mpr (h rfl)]

/-- One CHS field that fails reports its causes. -/
theorem chsFieldBytes_error {c : Chs} (e : Bool) (i : Slot) (h : ¬ c.InRange) :
    chsFieldBytes true c e i = .error (c.causes e i) := by
  have : chsInRange c = false := by
    rw [← Bool.not_eq_true, chsInRange_iff]; exact h
  simp [chsFieldBytes, this, rangeInfo_eq]

/-- The bytes of an encodable block. -/
theorem entryBytes_ok {e : SlotBlock} (i : Slot) (h : e.Encodable) :
    entryBytes e i = .ok (if e.valid then
      entryLayout e (if e.startChsValid then chsPackBytes e.startChs else [0x00#8, 0x00#8, 0x00#8])
        (if e.endChsValid then chsPackBytes e.endChs else [0x00#8, 0x00#8, 0x00#8])
      else List.replicate 16 0x00#8) := by
  unfold entryBytes
  cases hv : e.valid with
  | false => rfl
  | true =>
    obtain ⟨hs, he⟩ := h hv
    simp only [chsFieldBytes_ok false i hs, chsFieldBytes_ok true i he]
    simp

/-- A block that is not encodable answers RANGE with the causes of its first failing CHS. -/
theorem entryBytes_error {e : SlotBlock} (i : Slot) (h : ¬ e.Encodable) :
    entryBytes e i = .error (e.causes i) := by
  unfold SlotBlock.Encodable at h
  push Not at h
  obtain ⟨hv, h⟩ := h
  simp only [entryBytes, hv, SlotBlock.causes]
  by_cases hs : e.startChsValid = true ∧ ¬ e.startChs.InRange
  · rw [if_pos hs, hs.1, chsFieldBytes_error false i hs.2]; rfl
  · have hs' : e.startChsValid = true → e.startChs.InRange := fun hp => by
      by_contra hn; exact hs ⟨hp, hn⟩
    obtain ⟨he, hr⟩ := h hs'
    rw [if_neg hs, chsFieldBytes_ok false i hs', he, chsFieldBytes_error true i hr]
    simp

/-- The entry of an encodable block: 16 bytes, each the one R170 gives. -/
theorem entryBytes_spec {e : SlotBlock} (i : Slot) (h : e.Encodable) :
    ∃ bs, entryBytes e i = .ok bs ∧ bs.map BitVec.toNat = (List.range 16).map e.entryByte := by
  refine ⟨_, entryBytes_ok i h, ?_⟩
  have range16 : List.range 16 = [0, 1, 2, 3, 4, 5, 6, 7, 8, 9, 10, 11, 12, 13, 14, 15] := rfl
  rw [range16]
  cases hv : e.valid with
  | false => simp [SlotBlock.entryByte, hv]
  | true =>
    obtain ⟨hs, he⟩ := h hv
    have start_bytes : (if e.startChsValid then chsPackBytes e.startChs else [0x00#8, 0x00#8, 0x00#8]).map
        BitVec.toNat = [e.entryByte 1, e.entryByte 2, e.entryByte 3] := by
      cases hp : e.startChsValid with
      | false => simp [SlotBlock.entryByte, hv, hp]
      | true =>
        obtain ⟨h0, h1, h2⟩ := chsPackBytes_toNat (hs hp)
        simp [SlotBlock.entryByte, hv, hp, chsPackBytes, h0, h1, h2]
    have end_bytes : (if e.endChsValid then chsPackBytes e.endChs else [0x00#8, 0x00#8, 0x00#8]).map
        BitVec.toNat = [e.entryByte 5, e.entryByte 6, e.entryByte 7] := by
      cases hp : e.endChsValid with
      | false => simp [SlotBlock.entryByte, hv, hp]
      | true =>
        obtain ⟨h0, h1, h2⟩ := chsPackBytes_toNat (he hp)
        simp [SlotBlock.entryByte, hv, hp, chsPackBytes, h0, h1, h2]
    have boot : BitVec.toNat (if e.bootable then 0x80#8 else 0x00#8) = e.entryByte 0 := by
      cases hp : e.bootable <;> simp [SlotBlock.entryByte, hv, hp]
    simp only [if_true, entryLayout, List.map_append, start_bytes, end_bytes, List.map_cons,
      List.map_nil, boot, bytesOf32, byteOf_toNat]
    simp [SlotBlock.entryByte, hv]

/-- `entry_bytes` undoes `entry_decode`, but for bits [6:0] of the attribute byte
(43_partition_entry.md R173, R177 (d)). -/
theorem entryBytes_entryDecode (b : Nat → Byte) (i : Slot) :
    entryBytes (entryDecode b) i =
      .ok ((b 0 &&& 0x80#8) :: (List.range 15).map fun k => b (k + 1)) := by
  have h : (entryDecode b).Encodable := fun _ =>
    ⟨fun _ => chsUnpack_inRange _ _ _, fun _ => chsUnpack_inRange _ _ _⟩
  have hb : ∀ x : Byte, (if x.getLsbD 7 = true then 0x80#8 else 0x00#8) = x &&& 0x80#8 := by decide
  have boot : (if (entryDecode b).bootable = true then 0x80#8 else 0x00#8) = b 0 &&& 0x80#8 := hb (b 0)
  rw [entryBytes_ok i h, entryLayout, boot]
  simp only [entryDecode, chsPackBytes_unpack, byteOf_le32, if_true]
  rfl

/-- The bytes of an entry, byte by byte. -/
theorem getElem_of_map_eq {bs : List Byte} {n : Nat} {f : Nat → Nat}
    (h : bs.map BitVec.toNat = (List.range n).map f) {k : Nat} (hk : k < bs.length) :
    (bs[k]).toNat = f k := by
  have hn : bs.length = n := by simpa using congrArg List.length h
  have := congrArg (fun l => l[k]?) h
  simpa [hk, hn ▸ hk] using this

theorem length_of_map_eq {bs : List Byte} {n : Nat} {f : Nat → Nat}
    (h : bs.map BitVec.toNat = (List.range n).map f) : bs.length = n := by
  simpa using congrArg List.length h

/-! ### The four entries and the fresh sector -/

/-- All four blocks encodable: the bytes of their entries in slot order. -/
theorem allEntryBytes_spec {b : SlotBank} (h : ∀ i, (b.get i).Encodable) :
    ∃ bs, allEntryBytes b = .ok bs ∧
      bs.map BitVec.toNat =
        (List.range 64).map fun n => (b.get (Fin.ofNat 4 (n / 16))).entryByte (n % 16) := by
  obtain ⟨r0, e0, h0⟩ := entryBytes_spec 0 (h 0)
  obtain ⟨r1, e1, h1⟩ := entryBytes_spec 1 (h 1)
  obtain ⟨r2, e2, h2⟩ := entryBytes_spec 2 (h 2)
  obtain ⟨r3, e3, h3⟩ := entryBytes_spec 3 (h 3)
  refine ⟨r0 ++ r1 ++ r2 ++ r3, by simp [allEntryBytes, e0, e1, e2, e3, bind, Except.bind, pure, Except.pure], ?_⟩
  simp only [List.map_append, h0, h1, h2, h3]
  rfl

/-- The least block that is not encodable is the one reported (60_exceptions.md R238). -/
theorem allEntryBytes_error {b : SlotBank} {i : Slot} (h : ¬ (b.get i).Encodable)
    (least : ∀ k < i, (b.get k).Encodable) : allEntryBytes b = .error ((b.get i).causes i) := by
  have ok : ∀ k < i, ∃ r, entryBytes (b.get k) k = .ok r := fun k hk => ⟨_, entryBytes_ok k (least k hk)⟩
  have err := entryBytes_error i h
  fin_cases i
  · simp only [allEntryBytes]; erw [err]; rfl
  · obtain ⟨r0, e0⟩ := ok 0 (by decide)
    simp only [allEntryBytes, e0]; erw [err]; rfl
  · obtain ⟨r0, e0⟩ := ok 0 (by decide)
    obtain ⟨r1, e1⟩ := ok 1 (by decide)
    simp only [allEntryBytes, e0, e1]; erw [err]; rfl
  · obtain ⟨r0, e0⟩ := ok 0 (by decide)
    obtain ⟨r1, e1⟩ := ok 1 (by decide)
    obtain ⟨r2, e2⟩ := ok 2 (by decide)
    simp only [allEntryBytes, e0, e1, e2]; erw [err]; rfl

/-- Either every block is encodable or there is a least one that is not. -/
theorem encodable_or_least (b : SlotBank) :
    (∀ i, (b.get i).Encodable) ∨ ∃ i, ¬ (b.get i).Encodable ∧ ∀ k < i, (b.get k).Encodable := by
  by_cases h : ∀ i, (b.get i).Encodable
  · exact .inl h
  · right
    push Not at h
    obtain ⟨i, hi⟩ := h
    have hex : ∃ n, ∃ hn : n < 4, ¬ (b.get ⟨n, hn⟩).Encodable := ⟨i.val, i.isLt, by simpa using hi⟩
    classical
    obtain ⟨hn, hmin⟩ := Nat.find_spec hex
    refine ⟨⟨Nat.find hex, hn⟩, hmin, fun k hk => ?_⟩
    by_contra hc
    exact Nat.find_min hex (m := k.val) hk ⟨k.isLt, hc⟩

/-- The bytes of the fresh sector (44_mbr.md R203). -/
theorem freshSector_read (sig : Word) {es : List Byte} (hl : es.length = 64) :
    (∀ k < 4, (freshSector sig es).read (0x1B8 + k) = byteOf sig k) ∧
    (∀ k (hk : k < es.length), (freshSector sig es).read (0x1BE + k) = es[k]) ∧
    (freshSector sig es).read 0x1FE = 0x55#8 ∧ (freshSector sig es).read 0x1FF = 0xAA#8 ∧
    ∀ a, a < 0x1B8 ∨ a = 0x1BC ∨ a = 0x1BD ∨ 0x200 ≤ a → (freshSector sig es).read a = 0#8 := by
  have hr : ∀ (m : Memory) a bs, m.Rising → (m.writeBytes a bs).Rising :=
    fun m a bs hm => Memory.rising_writeBytes hm a bs
  have h1 := hr [] 0x1B8 (bytesOf32 sig) .nil
  have h2 := hr _ 0x1BE es h1
  unfold freshSector
  refine ⟨fun k hk => ?_, fun k hk => ?_, ?_, ?_, fun a ha => ?_⟩
  · rw [Memory.read_writeBytes_of_not_mem _ (by simp; omega),
      Memory.read_writeBytes_of_not_mem _ (by omega),
      Memory.read_writeBytes .nil 0x1B8 (k := k) (by simpa using hk)]
    interval_cases k <;> rfl
  · rw [Memory.read_writeBytes_of_not_mem _ (by simp; omega), Memory.read_writeBytes h1 0x1BE hk]
  · exact Memory.read_writeBytes h2 0x1FE (k := 0) (by simp)
  · exact Memory.read_writeBytes h2 0x1FE (k := 1) (by simp)
  · rw [Memory.read_writeBytes_of_not_mem _ (by simp; omega),
      Memory.read_writeBytes_of_not_mem _ (by omega),
      Memory.read_writeBytes_of_not_mem _ (by simp; omega)]
    rfl

theorem freshSector_wf (sig : Word) {es : List Byte} (hl : es.length = 64) : (freshSector sig es).wf := by
  unfold freshSector
  exact Memory.wf_writeBytes (Memory.wf_writeBytes (Memory.wf_writeBytes Memory.wf_nil (by simp)) (by omega))
    (by simp)

/-! ### Decoding after encoding, and back -/

/-- Packing an unpacked CHS_PACKED gives it back (41_chs.md R135). -/
theorem chsPack24_unpack24 (p : BitVec 24) : chsPack24 (chsUnpack24 p) = p := by
  have h := chsPackBytes_unpack (p.extractLsb' 0 8) (p.extractLsb' 8 8) (p.extractLsb' 16 8)
  simp only [chsPackBytes, List.cons.injEq, and_true] at h
  apply BitVec.eq_of_toNat_eq
  unfold chsPack24 chsUnpack24
  rw [h.1, h.2.1, h.2.2]
  simp only [toNat_append, BitVec.extractLsb'_toNat, Nat.shiftRight_eq_div_pow]
  have := p.isLt
  omega

theorem Memory.entryAt_eq (m : Memory) (i : Slot) : m.entryAt i = entryDecode fun k => m.read (entryOffset i + k) := by
  simp [Memory.entryAt]

/-- The entry that SECTOR holds at slot i, field by field. -/
theorem Memory.entryAt_decodedFrom (m : Memory) (i : Slot) : (m.entryAt i).DecodedFrom fun k => m.read (entryOffset i + k) := by
  rw [Memory.entryAt_eq]; exact entryDecode_decodedFrom _

theorem Chs.ext_toNat {c d : Chs} (h1 : c.cyl.toNat = d.cyl.toNat) (h2 : c.head.toNat = d.head.toNat) (h3 : c.sect.toNat = d.sect.toNat) : c = d := by
  cases c; cases d
  simp only [Chs.mk.injEq]
  exact ⟨BitVec.eq_of_toNat_eq h1, BitVec.eq_of_toNat_eq h2, BitVec.eq_of_toNat_eq h3⟩

/-- The bytes of an optional CHS field determine what decodes from them. -/
theorem Chs.eq_of_unpackedFrom {c : Chs} {p : Bool} {d : Chs} {b0 b1 b2 : Byte} (h : d.UnpackedFrom b0 b1 b2) (hr : p = true → c.InRange)
   (h0 : b0.toNat = if p then c.packedByte 0 else 0) (h1 : b1.toNat = if p then c.packedByte 1 else 0)  (h2 : b2.toNat = if p then c.packedByte 2 else 0) :
   d = if p then c else Chs.zero := by
  obtain ⟨e0, e1, e2⟩ := h
  cases p with
  | false =>
    simp only [Bool.false_eq_true, if_false] at h0 h1 h2 ⊢
    exact Chs.ext_toNat (by simp [Chs.zero]; omega) (by simp [Chs.zero]; omega) (by simp [Chs.zero]; omega)
  | true => 
    have := hr rfl
    simp only [if_true, Chs.packedByte] at h0 h1 h2 ⊢
    unfold Chs.InRange at this
    exact Chs.ext_toNat (by omega) (by omega) (by omega)

theorem eq_of_leNumber {v w : Word} {b0 b1 b2 b3 : Byte} (h : w.toNat = leNumber b0 b1 b2 b3) 
   (h0 : b0.toNat = leByte v 0) (h1 : b1.toNat = leByte v 1) (h2 : b2.toNat = leByte v 2) (h3 : b3.toNat = leByte v 3) : w = v := by
  apply BitVec.eq_of_toNat_eq
  simp only [leNumber, leByte] at *
  have := v.isLt
  omega

/-- Decoding the bytes of an encodable block gives it back, normalised (43_partition_entry.md R177). -/
theorem entryDecode_of_entryByte {b : SlotBlock} {e : Nat → Byte} (h : b.Encodable) (he : ∀ k < 16, (e k).toNat = b.entryByte k) :
    entryDecode e = b.normalised := by
  obtain ⟨v, bt, sv, ev, ty, sc, ec, sl, cn⟩ := entryDecode_decodedFrom e
  cases hv : b.valid with
  | false => 
    have z : ∀ k < 16, e k = 0#8 := fun k hk => BitVec.eq_of_toNat_eq (by rw [he k hk]; simp [SlotBlock.entryByte, hv])
    unfold entryDecode
    simp only [z 0 (by omega),z 1 (by omega),z 2 (by omega),z 3 (by omega),z 4 (by omega),z 5 (by omega),z 6 (by omega),z 7 (by omega),z 8 (by omega),z 9 (by omega),z 10 (by omega),z 11 (by omega),z 12 (by omega),z 13 (by omega),z 14 (by omega),z 15 (by omega)]
    simp [SlotBlock.normalised, hv]
    decide
  | true =>
    obtain ⟨hs, hE⟩ := h hv
    have f : ∀ k (_ : k < 16) n, b.entryByte k = n → (e k).toNat = n := fun k hk n h => by rw [he k hk, h]
    have s0 := f 1 (by omega) _ rfl
    have s1 := f 2 (by omega) _ rfl
    have s2 := f 3 (by omega) _ rfl
    have t0 := f 5 (by omega) _ rfl
    have t1 := f 6 (by omega) _ rfl
    have t2 := f 7 (by omega) _ rfl
    have b0 := f 0 (by omega) _ rfl
    have y := f 4 (by omega) _ rfl
    have l0 := f 8 (by omega) _ rfl
    have l1 := f 9 (by omega) _ rfl
    have l2 := f 10 (by omega) _ rfl
    have l3 := f 11 (by omega) _ rfl
    have c0 := f 12 (by omega) _ rfl
    have c1 := f 13 (by omega) _ rfl
    have c2 := f 14 (by omega) _ rfl
    have c3 := f 15 (by omega) _ rfl
    simp [SlotBlock.entryByte, hv] at s0 s1 s2 t0 t1 t2 b0 y l0 l1 l2 l3 c0 c1 c2 c3
    have A := Chs.eq_of_unpackedFrom sc hs s0 s1 s2
    have B := Chs.eq_of_unpackedFrom ec hE t0 t1 t2
    have C := eq_of_leNumber sl l0 l1 l2 l3
    have D := eq_of_leNumber cn c0 c1 c2 c3
    have T : (entryDecode e).ptype = b.ptype := by rw [ty]; exact BitVec.eq_of_toNat_eq y
    have BT : (entryDecode e).bootable = b.bootable := by
      rw [bt, b0]; cases b.bootable <;> simp
    simp only [SlotBlock.normalised, hv]
    cases hd : entryDecode e
    rw [hd] at A B C D T BT v sv ev
    simp at A B C D T BT v sv ev
    simp [A,B,C,D,T,BT,v,sv,ev]

/-- A block with every optional value present is its own normal form. -/
theorem SlotBlock.normalised_self {b : SlotBlock} (h1 : b.valid = true) (h2 : b.startChsValid = true) (h3 : b.endChsValid = true) : b.normalised = b := by
  cases b; simp only at h1 h2 h3; subst h1 h2 h3; rfl

/-- The entry bytes of a decoded block are the bytes it came from, but for bits [6:0] of the attribute byte
(43_partition_entry.md R173). -/
theorem entryByte_entryDecode (e : Nat → Byte) {k : Nat} (hk : k < 16) : (entryDecode e).entryByte k = (if k = 0 then e 0 &&& 0x80#8 else e k).toNat := by
  have h : (entryDecode e).Encodable := fun _ =>
    ⟨fun _ => chsUnpack_inRange _ _ _, fun _ => chsUnpack_inRange _ _ _⟩
  obtain ⟨bs, hb, hm⟩ := entryBytes_spec 0 h
  rw [entryBytes_entryDecode] at hb
  cases hb
  have := getElem_of_map_eq hm (k := k) (by simpa using hk)
  rw [← this]
  rcases k with _ | k <;> simp

end Sys2Proof.Machine
end

