-- ==== Sys2Proof/Laws/Decode.lean ====
section
/-! SUPPORT. The fields of a command word as numbers, on both sides of the decoder. -/

namespace Sys2Proof

theorem Bool.toNat_mod_two (n : Nat) : (n % 2 == 1).toNat = n % 2 := by
  rcases Nat.mod_two_eq_zero_or_one n with h | h <;> simp [h]

theorem slotField_val (w : Word) : (slotField w).val = w.toNat / 2 ^ 8 % 2 ^ 2 := by
  simp [slotField, Nat.shiftRight_eq_div_pow]

theorem ignField_toNat (w : Word) : (ignField w).toNat = w.toNat / 2 ^ 16 % 2 := by
  rw [← Bool.toNat_mod_two]
  simp [ignField, BitVec.getLsbD, Nat.testBit, Nat.shiftRight_eq_div_pow]

theorem opField_toNat (w : Word) : (w.extractLsb' 0 8).toNat = w.toNat % 2 ^ 8 := by simp

theorem reservedLow_toNat (w : Word) : (w.extractLsb' 10 6).toNat = w.toNat / 2 ^ 10 % 2 ^ 6 := by
  simp [Nat.shiftRight_eq_div_pow]

theorem reservedHigh_toNat (w : Word) : (w.extractLsb' 17 15).toNat = w.toNat / 2 ^ 17 := by
  have := w.isLt
  rw [BitVec.extractLsb'_toNat, Nat.shiftRight_eq_div_pow]
  omega

/-- A word with clear reserved bits is its three fields. -/
theorem toNat_of_reserved_clear {w : Word} (h1 : w.extractLsb' 10 6 = 0#6)
    (h2 : w.extractLsb' 17 15 = 0#15) :
    w.toNat = (w.extractLsb' 0 8).toNat + 2 ^ 8 * (slotField w).val + 2 ^ 16 * (ignField w).toNat := by
  have e1 := reservedLow_toNat w
  have e2 := reservedHigh_toNat w
  rw [h1] at e1
  rw [h2] at e2
  rw [opField_toNat, slotField_val, ignField_toNat]
  simp only [BitVec.toNat_ofNat, Nat.zero_mod] at e1 e2
  omega

/-- An assembled command word is its three fields (30_encoding.md R90). -/
theorem commandWord_toNat (op : Opcode) (s : Slot) (g : Bool) :
    (commandWord op s g).toNat = (byteOfOpcode op).toNat + 2 ^ 8 * s.val + 2 ^ 16 * g.toNat := by
  revert s g
  cases op <;> decide

/-- The opcode map of R91 read in both directions. -/
theorem byteOfOpcode_of_opcodeOfByte {b : Byte} {op : Opcode} (h : opcodeOfByte b = some op) :
    byteOfOpcode op = b := by
  revert b
  cases op <;> decide +kernel

theorem opcodeOfByte_byteOfOpcode (op : Opcode) : opcodeOfByte (byteOfOpcode op) = some op := by
  cases op <;> rfl

end Sys2Proof
end

