-- ==== Sys2Proof/Laws/Exec.lean ====
section
/-! SUPPORT. What executing a command can do: one lemma per command, each giving the next state, and one
inversion lemma over all words (`runWord_shape`), which the invariant and the atomicity of a command
rest on. -/

namespace Sys2Proof.Machine

/-! ### One lemma per command -/

theorem exec_chsDec (s : State) :
    exec .chsDec s = .next (s.setChs (chsUnpack24 s.chsPacked)).completeOk := rfl

theorem exec_chsEnc_ok {s : State} (h : s.chs.InRange) :
    exec .chsEnc s = .next (s.setChsPacked (chsPack24 s.chs)).completeOk := by
  simp [exec, execChsEnc, (chsInRange_iff s.chs).mpr h]

theorem exec_chsEnc_range {s : State} (h : ¬ s.chs.InRange) :
    exec .chsEnc s = .next (s.raise .range (s.chs.causes false 0)) := by
  simp [exec, execChsEnc, chsInRange_iff, h, rangeInfo_eq]

theorem exec_lbaDec (s : State) : exec .lbaDec s = .next (s.setLbaValue s.lbaBytes).completeOk := by
  simp only [exec, execLbaDec, le32_byteOf]

theorem exec_lbaEnc (s : State) : exec .lbaEnc s = .next (s.setLbaBytes s.lbaValue).completeOk :=
  congrArg (fun w => Host.Outcome.next (s.setLbaBytes w).completeOk) (le32_byteOf s.lbaValue)

theorem exec_peDec_ok {i : Slot} {s : State} (h : entryOffset i + 16 ≤ s.effLen) :
    exec (.peDec i) s = .next (s.setSlot i (s.sector.entryAt i)).completeOk := by
  simp only [exec, execPeDec, slotOffset_eq]
  rw [if_neg (by omega)]

theorem exec_peDec_short {i : Slot} {s : State} (h : s.effLen < entryOffset i + 16) :
    exec (.peDec i) s = .next (s.raise .short RangeInfo.clear) := by
  simp only [exec, execPeDec, slotOffset_eq]
  rw [if_pos h]

/-- PE_ENC of an encodable block, with its 16 bytes. -/
theorem exec_peEnc_ok {i : Slot} {s : State} (h : (s.slot i).Encodable) :
    ∃ bs, exec (.peEnc i) s = .next (s.setSector (s.sector.writeBytes (entryOffset i) bs)).completeOk ∧
      entryBytes (s.slot i) i = .ok bs ∧
      bs.map BitVec.toNat = (List.range 16).map (s.slot i).entryByte := by
  obtain ⟨bs, he, hb⟩ := entryBytes_spec i h
  exact ⟨bs, by simp [exec, execPeEnc, he], he, hb⟩

theorem exec_peEnc_range {i : Slot} {s : State} (h : ¬ (s.slot i).Encodable) :
    exec (.peEnc i) s = .next (s.raise .range ((s.slot i).causes i)) := by
  simp [exec, execPeEnc, entryBytes_error i h]

theorem exec_mbrDec_short {g : Bool} {s : State} (h : s.effLen < 512) :
    exec (.mbrDec g) s = .next (s.raise .short RangeInfo.clear) := by
  simp [exec, execMbrDec, h]

theorem exec_mbrDec_nosig {s : State} (h : 512 ≤ s.effLen) (hs : ¬ s.Signed) :
    exec (.mbrDec false) s = .next (s.raise .nosig RangeInfo.clear) := by
  have : sigValid s.sector = false := by rw [← Bool.not_eq_true, sigValid_iff]; exact hs
  simp [exec, execMbrDec, this, Nat.not_lt.mpr h]

theorem exec_mbrDec_ok {g : Bool} {s : State} (h : 512 ≤ s.effLen) (hs : s.Signed ∨ g = true) :
    exec (.mbrDec g) s = .next (s.loadRecord.complete .ok (sigValid s.sector) RangeInfo.clear) := by
  have : (!sigValid s.sector && !g) = false := by
    rcases hs with hs | hs
    · simp [(sigValid_iff s).mpr hs]
    · simp [hs]
  simp [exec, execMbrDec, this, Nat.not_lt.mpr h]

/-- MBR_ENC of encodable slots, with its 64 entry bytes. -/
theorem exec_mbrEnc_ok {s : State} (h : ∀ i, (s.slot i).Encodable) :
    ∃ bs, exec .mbrEnc s =
        .next ((s.setSector (freshSector s.encodedSig bs)).setLen 0x200#16).completeOk ∧
      allEntryBytes s.slots = .ok bs ∧
      bs.map BitVec.toNat =
        (List.range 64).map fun n => (s.slot (Fin.ofNat 4 (n / 16))).entryByte (n % 16) := by
  obtain ⟨bs, he, hb⟩ := allEntryBytes_spec (b := s.slots) h
  exact ⟨bs, by simp [exec, execMbrEnc, he], he, hb⟩

theorem exec_mbrEnc_range {i : Slot} {s : State} (h : ¬ (s.slot i).Encodable)
    (least : ∀ k < i, (s.slot k).Encodable) :
    exec .mbrEnc s = .next (s.raise .range ((s.slot i).causes i)) := by
  simp [exec, execMbrEnc, allEntryBytes_error (b := s.slots) h least, State.slot]

/-- MBR_ENC completes OK only if every slot is encodable. -/
theorem encodable_of_exec_mbrEnc {s t : State} (h : exec .mbrEnc s = .next t) (hr : t.status.result = 1#4) :
    ∀ i, (s.slot i).Encodable := by
  rcases encodable_or_least s.slots with he | ⟨i, hi, hl⟩
  · exact he
  · rw [exec_mbrEnc_range (s := s) hi hl] at h; cases h; cases hr

/-- MBR_DEC completes OK only on a whole sector that is signed or whose signature is ignored. -/
theorem gate_of_exec_mbrDec {g : Bool} {s t : State} (h : exec (.mbrDec g) s = .next t)
    (hr : t.status.result = 1#4) : 512 ≤ s.effLen ∧ (s.Signed ∨ g = true) := by
  by_cases hl : 512 ≤ s.effLen
  · refine ⟨hl, by_contra fun hs => ?_⟩
    push Not at hs
    obtain rfl : g = false := by simpa using hs.2
    rw [exec_mbrDec_nosig hl hs.1] at h; cases h; cases hr
  · rw [exec_mbrDec_short (by omega)] at h; cases h; cases hr

/-- `effLen` reaches 512 exactly when LEN does. -/
theorem effLen_ge {s : State} {n : Nat} (hn : n ≤ 512) : n ≤ s.effLen ↔ n ≤ s.len.toNat := by
  unfold State.effLen; omega

/-! ### Causes -/

/-- A CHS value out of range has a cause. -/
theorem Chs.causes_some {c : Chs} (e : Bool) (i : Slot) (h : ¬ c.InRange) :
    (c.causes e i).cyl = true ∨ (c.causes e i).head = true ∨ (c.causes e i).sect = true := by
  unfold Chs.InRange at h
  simp only [Chs.causes, decide_eq_true_eq]
  omega

theorem SlotBlock.causes_some {b : SlotBlock} (i : Slot) (h : ¬ b.Encodable) :
    (b.causes i).cyl = true ∨ (b.causes i).head = true ∨ (b.causes i).sect = true := by
  unfold SlotBlock.causes
  split
  · next hs => exact Chs.causes_some false i hs.2
  · next hs =>
    refine Chs.causes_some true i fun he => h fun _ => ⟨fun hp => ?_, fun _ => he⟩
    by_contra hr
    exact hs ⟨hp, hr⟩

/-! ### Every word -/

/-- The state before completion: only destinations of a command may differ from `s`. -/
structure Computed (s s' : State) : Prop where
  cmd : s'.cmd = s.cmd
  status : s'.status = s.status
  inflight : s'.inflight = s.inflight
  port : s'.port = s.port
  reads : s'.reads = s.reads
  draws : s'.draws = s.draws
  wf : s.sector.wf → s'.sector.wf

theorem Computed.refl (s : State) : Computed s s := ⟨rfl, rfl, rfl, rfl, rfl, rfl, id⟩

/-- What a completion reports beside its outcome. -/
def Reported (r : ResultCode) (sigOk : Bool) (info : RangeInfo) : Prop :=
  r ≠ .none ∧ (r ≠ .range → info = RangeInfo.clear) ∧
  (r = .range → info.cyl = true ∨ info.head = true ∨ info.sect = true) ∧ (sigOk = true → r = .ok)

/-- What executing a command can do: its destinations are computed, then it completes; a result other
than OK has computed nothing (10_state.md R33). -/
theorem exec_shape (i : Instr) (s : State) :
    ∃ s' r b info, exec i s = .next (s'.complete r b info) ∧ Computed s s' ∧ Reported r b info ∧
      (r ≠ .ok → s' = s) ∧ r ≠ .illegal := by
  have ok : ∀ s' b, exec i s = .next (s'.complete .ok b RangeInfo.clear) → Computed s s' →
      ∃ s' r b info, exec i s = .next (s'.complete r b info) ∧ Computed s s' ∧ Reported r b info ∧
      (r ≠ .ok → s' = s) ∧ r ≠ .illegal := fun s' b he hc =>
    ⟨s', .ok, b, _, he, hc, ⟨by simp, by simp, by simp, by simp⟩, by simp, by simp⟩
  have bad : ∀ r info, exec i s = .next (s.raise r info) → Reported r false info → r ≠ .illegal →
      ∃ s' r b info, exec i s = .next (s'.complete r b info) ∧ Computed s s' ∧ Reported r b info ∧
      (r ≠ .ok → s' = s) ∧ r ≠ .illegal := fun r info he hr hi =>
    ⟨s, r, false, info, he, Computed.refl s, hr, fun _ => rfl, hi⟩
  have clear : ∀ r : ResultCode, r ≠ .none → r ≠ .range → Reported r false RangeInfo.clear :=
    fun r hn hr => ⟨hn, fun _ => rfl, fun h => absurd h hr, by simp⟩
  have caused : ∀ info : RangeInfo, info.cyl = true ∨ info.head = true ∨ info.sect = true →
      Reported .range false info := fun info h => ⟨by simp, by simp, fun _ => h, by simp⟩
  cases i with
  | chsDec => exact ok _ _ (exec_chsDec s) ⟨rfl, rfl, rfl, rfl, rfl, rfl, id⟩
  | chsEnc =>
    by_cases h : s.chs.InRange
    · exact ok _ _ (exec_chsEnc_ok h) ⟨rfl, rfl, rfl, rfl, rfl, rfl, id⟩
    · exact bad .range _ (exec_chsEnc_range h) (caused _ (Chs.causes_some _ _ h)) (by simp)
  | lbaDec => exact ok _ _ (exec_lbaDec s) ⟨rfl, rfl, rfl, rfl, rfl, rfl, id⟩
  | lbaEnc => exact ok _ _ (exec_lbaEnc s) ⟨rfl, rfl, rfl, rfl, rfl, rfl, id⟩
  | peDec i =>
    by_cases h : entryOffset i + 16 ≤ s.effLen
    · exact ok _ _ (exec_peDec_ok h) ⟨rfl, rfl, rfl, rfl, rfl, rfl, id⟩
    · exact bad .short _ (exec_peDec_short (by omega)) (clear _ (by simp) (by simp)) (by simp)
  | peEnc i =>
    by_cases h : (s.slot i).Encodable
    · obtain ⟨bs, he, -, hb⟩ := exec_peEnc_ok h
      refine ok _ _ he ⟨rfl, rfl, rfl, rfl, rfl, rfl, fun hw => ?_⟩
      refine Memory.wf_writeBytes hw ?_
      have := length_of_map_eq hb
      have := entryOffset_eq i
      omega
    · exact bad .range _ (exec_peEnc_range h) (caused _ (SlotBlock.causes_some i h)) (by simp)
  | mbrDec g =>
    by_cases h : 512 ≤ s.effLen
    · by_cases hs : s.Signed ∨ g = true
      · exact ok _ _ (exec_mbrDec_ok h hs) ⟨rfl, rfl, rfl, rfl, rfl, rfl, id⟩
      · push Not at hs
        obtain rfl : g = false := by simpa using hs.2
        exact bad .nosig _ (exec_mbrDec_nosig h hs.1) (clear _ (by simp) (by simp)) (by simp)
    · exact bad .short _ (exec_mbrDec_short (by omega)) (clear _ (by simp) (by simp)) (by simp)
  | mbrEnc =>
    rcases encodable_or_least s.slots with h | ⟨i, hi, hl⟩
    · obtain ⟨bs, he, -, hb⟩ := exec_mbrEnc_ok (s := s) h
      exact ok _ _ he ⟨rfl, rfl, rfl, rfl, rfl, rfl, fun _ => freshSector_wf _ (length_of_map_eq hb)⟩
    · exact bad .range _ (exec_mbrEnc_range (s := s) hi hl) (caused _ (SlotBlock.causes_some i hi)) (by simp)

/-- The same over all words: a word that names no command computes nothing and completes ILLEGAL. -/
theorem runWord_shape (w : Word) (s : State) :
    ∃ s' r b info, runWord w s = .next (s'.complete r b info) ∧ Computed s s' ∧ Reported r b info ∧
      (r ≠ .ok → s' = s) ∧ (r = .illegal ↔ ∀ i, decode w ≠ .command i) := by
  unfold runWord
  split
  · next i hd =>
    obtain ⟨s', r, b, info, he, hc, hr, hs, hi⟩ := exec_shape i s
    exact ⟨s', r, b, info, he, hc, hr, hs, by simp [hi, hd]⟩
  · next why hd =>
    exact ⟨s, .illegal, false, RangeInfo.clear, rfl, Computed.refl s, ⟨by simp, by simp, by simp, by simp⟩,
      fun _ => rfl, by simp [hd]⟩

/-- A completed command reports a consistent STATUS. -/
theorem Reported.consistent {r : ResultCode} {b : Bool} {info : RangeInfo} (h : Reported r b info) (s : State) :
    (s.complete r b info).status.Consistent := by
  obtain ⟨hn, hc, hr, hk⟩ := h
  cases r <;> simp_all [Status.Consistent, ResultCode.code]

end Sys2Proof.Machine
end

