-- ==== Sys2Proof/Laws/PerInstr.lean ====
section
/-! SUPPORT. Statements per instruction. The family EncodeWellFormed: the word of a command is none of R94's
illegal words, for every operand. -/

/-- The encoding of a command is a word that names a command (30_encoding.md R94). -/
def Sys2Proof.Laws.EncodeWellFormed.Statement (i : Sys2Proof.Instr) : Prop :=
  Sys2Proof.CommandWord.wellFormed (Sys2Proof.encode i) = true

namespace Sys2Proof.Laws.EncodeWellFormed

theorem chsDec : Statement .chsDec := by unfold Statement; decide

theorem chsEnc : Statement .chsEnc := by unfold Statement; decide

theorem lbaDec : Statement .lbaDec := by unfold Statement; decide

theorem lbaEnc : Statement .lbaEnc := by unfold Statement; decide

theorem peDec (slot : Slot) : Statement (.peDec slot) := by unfold Statement; revert slot; decide

theorem peEnc (slot : Slot) : Statement (.peEnc slot) := by unfold Statement; revert slot; decide

theorem mbrDec (ign : Bool) : Statement (.mbrDec ign) := by unfold Statement; revert ign; decide

theorem mbrEnc : Statement .mbrEnc := by unfold Statement; decide

end Sys2Proof.Laws.EncodeWellFormed
end

