-- ==== Sys2Proof/Laws/Step.lean ====
section
/-! SUPPORT. What one cycle can do: the three kinds of cycle (reset, ready, busy), the host's
transaction in each, and the independence of a command from the traffic of its latency. -/

namespace Sys2Proof.Machine

/-! ### The three kinds of cycle -/

theorem resultLegal_iff (s : State) : s.resultLegal = true ↔ s.status.result.toNat ≤ 5 := by
  simp [State.resultLegal, ResultCode.code, BitVec.le_def]

theorem step_fault {s : State} (h : s.resultLegal = false) : step s = .fault .resultNeverProduced := by
  simp [step, h]

theorem step_reset {s : State} (h : s.resultLegal = true) (hr : s.presented.reset = true) :
    step s = .next s.popPort.hardReset := by
  simp [step, h, cycle, hr]

theorem step_ready {s : State} (h : s.resultLegal = true) (hr : s.presented.reset = false)
    (hi : s.inflight = none) : step s = readyCycle s.presented.txn s.popPort := by
  simp [step, h, cycle, hr, hi]

theorem step_busy {s : State} {j : InFlight} (h : s.resultLegal = true) (hr : s.presented.reset = false)
    (hi : s.inflight = some j) : step s = advance j (busyTransaction s.presented.txn s.popPort) := by
  simp [step, h, cycle, hr, hi]

/-- What a state presents when its next cycle is known. -/
theorem presented_of_port {s : State} {c : PortCycle} {rest : List PortCycle} (h : s.port = c :: rest) :
    s.presented = c ∧ s.popPort = s.setPort rest := by
  simp [State.presented, State.popPort, h]

/-- Every word completes. -/
theorem runWord_next (w : Word) (s : State) : ∃ t, runWord w s = .next t := by
  obtain ⟨s', r, b, info, he, -⟩ := runWord_shape w s
  exact ⟨_, he⟩

/-- An accepted command completes in the same cycle if its latency is 0, and is in flight otherwise. -/
theorem startCommand_eq (w : Word) (s : State) :
    startCommand w s = if latency w = 0 then runWord w (s.setCmd w) else .next (s.accept w) := rfl

/-! ### Offsets -/

theorem alignedOffset_eq (a : BitVec 10) : alignedOffset a = a.toNat / 4 * 4 := by
  revert a; decide +kernel

theorem target_status_iff (a : BitVec 10) : target a = .status ↔ 0x204 ≤ a.toNat ∧ a.toNat < 0x208 := by
  revert a; decide +kernel

theorem target_cmd_iff (a : BitVec 10) : target a = .cmd ↔ 0x200 ≤ a.toNat ∧ a.toNat < 0x204 := by
  revert a; decide +kernel

/-- A SECTOR word lies whole inside SECTOR. -/
theorem target_sector_lt {a : BitVec 10} {off : Nat} (h : target a = .sector off) : off + 3 < 512 := by
  have h' : alignedOffset a = off ∧ alignedOffset a < 0x200 := by
    unfold target at h
    split at h
    · exact ⟨by injection h, by assumption⟩
    · split at h
      · unfold controlAt at h; split at h <;> exact absurd h (by simp)
      · exact absurd h (by simp)
  have := alignedOffset_eq a
  omega

/-- The port sees the same word at any A with the same A[9:2]. -/
theorem target_and_mask (a : BitVec 10) : target (a &&& 0x3FC#10) = target a := by
  revert a; decide +kernel

/-! ### Writes through the port -/

theorem Memory.wf_writeLane {m : Memory} (hm : m.wf) {off : Nat} (h : off + 3 < 512) (d : Word)
    (k : BitVec 4) {j : Nat} (hj : j < 4) : (m.writeLane off d k j).wf := by
  unfold Memory.writeLane
  split
  · exact Memory.wf_write hm (by omega) _
  · exact hm

/-- A strobed write of a SECTOR word keeps the canonical form. -/
theorem Memory.wf_writeStrobed {m : Memory} (hm : m.wf) {off : Nat} (h : off + 3 < 512) (d : Word)
    (k : BitVec 4) : (m.writeStrobed off d k).wf := by
  unfold Memory.writeStrobed
  exact Memory.wf_writeLane (Memory.wf_writeLane (Memory.wf_writeLane (Memory.wf_writeLane hm h d k
    (by omega)) h d k (by omega)) h d k (by omega)) h d k (by omega)

theorem Memory.read_writeLane {m : Memory} (hm : m.Rising) (off : Nat) (d : Word) (k : BitVec 4) (j x : Nat) :
    (m.writeLane off d k j).read x = if x = off + j ∧ k.getLsbD j = true then byteOf d j else m.read x := by
  unfold Memory.writeLane
  split
  · next h => rw [Memory.read_write hm]; simp [h]
  · next h => simp [h]

theorem Memory.rising_writeLane {m : Memory} (hm : m.Rising) (off : Nat) (d : Word) (k : BitVec 4) (j : Nat) :
    (m.writeLane off d k j).Rising := by
  unfold Memory.writeLane
  split
  · exact Memory.rising_write hm _ _
  · exact hm

/-- A strobed write of a SECTOR word, byte by byte. -/
theorem Memory.read_writeStrobed {m : Memory} (hm : m.Rising) (off : Nat) (d : Word) (k : BitVec 4) :
    (∀ j < 4, (m.writeStrobed off d k).read (off + j) =
      if k.getLsbD j then byteOf d j else m.read (off + j)) ∧
    ∀ x, x < off ∨ off + 4 ≤ x → (m.writeStrobed off d k).read x = m.read x := by
  have h0 := Memory.rising_writeLane hm off d k 0
  have h1 := Memory.rising_writeLane h0 off d k 1
  have h2 := Memory.rising_writeLane h1 off d k 2
  unfold Memory.writeStrobed
  refine ⟨fun j hj => ?_, fun x hx => ?_⟩
  · rw [Memory.read_writeLane h2, Memory.read_writeLane h1, Memory.read_writeLane h0,
      Memory.read_writeLane hm]
    interval_cases j <;> simp
  · rw [Memory.read_writeLane h2, Memory.read_writeLane h1, Memory.read_writeLane h0,
      Memory.read_writeLane hm]
    repeat rw [if_neg (by omega)]

/-- What a write to any offset but CMD keeps: everything but SECTOR, STATUS.OVR and the one register. -/
theorem writeWindow_keeps (s : State) (t : Target) (d : Word) (k : BitVec 4) :
    (s.writeWindow t d k).cmd = s.cmd ∧ (s.writeWindow t d k).inflight = s.inflight ∧
    (s.writeWindow t d k).port = s.port ∧ (s.writeWindow t d k).reads = s.reads ∧
    (s.writeWindow t d k).draws = s.draws ∧
    (s.writeWindow t d k).status.result = s.status.result ∧
    (s.writeWindow t d k).status.sigOk = s.status.sigOk ∧
    (s.writeWindow t d k).status.range = s.status.range ∧
    (t ≠ .status → (s.writeWindow t d k).status = s.status) ∧
    ((∀ off, t ≠ .sector off) → (s.writeWindow t d k).sector = s.sector) := by
  cases t <;> simp [State.writeWindow, State.writeRegister, State.writeStatus]

/-! ### Traffic during BUSY -/

/-- What a transaction of a busy cycle keeps. -/
theorem busyTransaction_keeps (x : Option Txn) (s : State) :
    (busyTransaction x s).hideTraffic = s.hideTraffic ∧ (busyTransaction x s).port = s.port ∧
    (busyTransaction x s).status.ovr =
      (s.status.ovr || PortCycle.strobedWrite { reset := false, txn := x }) := by
  unfold busyTransaction
  split
  · simp [PortCycle.strobedWrite]
  · split <;>
      simp [State.hideTraffic, State.respond, State.respondDraw, State.setReads, State.setDraws,
        PortCycle.strobedWrite]
  · split
    · next h => simp [PortCycle.strobedWrite, h]
    · next h => simp [State.hideTraffic, State.setOvr, State.setStatus, PortCycle.strobedWrite, h]

/-- The state with other traffic: another OVR and other port bookkeeping. -/
def State.withTraffic (s : State) (o : Bool) (p : List PortCycle) (r : List Word) (n : Nat) : State :=
  { s with status := { s.status with ovr := o }, port := p, reads := r, draws := n }

/-- The next state of an outcome with other traffic. -/
def nextWithTraffic (o : Bool) (p : List PortCycle) (r : List Word) (n : Nat) :
    Host.Outcome State Fault Refusal → Host.Outcome State Fault Refusal
  | .next t => .next (t.withTraffic o p r n)
  | .fault f => .fault f
  | .refused x => .refused x

/-- No command reads OVR or the port's bookkeeping, and none writes it. -/
theorem exec_withTraffic (i : Instr) (s : State) (o : Bool) (p : List PortCycle) (r : List Word) (n : Nat) :
    exec i (s.withTraffic o p r n) = nextWithTraffic o p r n (exec i s) := by
  cases i with
  | chsDec => rfl
  | chsEnc =>
    by_cases h : s.chs.InRange
    · rw [exec_chsEnc_ok h, exec_chsEnc_ok (s := s.withTraffic o p r n) h]; rfl
    · rw [exec_chsEnc_range h, exec_chsEnc_range (s := s.withTraffic o p r n) h]; rfl
  | lbaDec => rfl
  | lbaEnc => rfl
  | peDec k =>
    by_cases h : entryOffset k + 16 ≤ s.effLen
    · rw [exec_peDec_ok h, exec_peDec_ok (s := s.withTraffic o p r n) h]; rfl
    · have h' : s.effLen < entryOffset k + 16 := Nat.lt_of_not_le h
      rw [exec_peDec_short h', exec_peDec_short (s := s.withTraffic o p r n) h']; rfl
  | peEnc k =>
    show execPeEnc k _ = nextWithTraffic o p r n (execPeEnc k s)
    unfold execPeEnc
    rw [show (s.withTraffic o p r n).slot k = s.slot k from rfl]
    split <;> rfl
  | mbrDec g =>
    show execMbrDec g _ = nextWithTraffic o p r n (execMbrDec g s)
    unfold execMbrDec
    rw [show (s.withTraffic o p r n).effLen = s.effLen from rfl,
      show (s.withTraffic o p r n).sector = s.sector from rfl]
    split
    · rfl
    · split <;> rfl
  | mbrEnc =>
    show execMbrEnc _ = nextWithTraffic o p r n (execMbrEnc s)
    unfold execMbrEnc
    rw [show (s.withTraffic o p r n).slots = s.slots from rfl]
    split <;> rfl

theorem runWord_withTraffic (w : Word) (s : State) (o : Bool) (p : List PortCycle) (r : List Word) (n : Nat) :
    runWord w (s.withTraffic o p r n) = nextWithTraffic o p r n (runWord w s) := by
  unfold runWord
  split
  · exact exec_withTraffic _ s o p r n
  · rfl

/-- States that differ in traffic only. -/
theorem eq_withTraffic {s u : State} (h : s.hideTraffic = u.hideTraffic) :
    s = u.withTraffic s.status.ovr s.port s.reads s.draws := by
  obtain ⟨_, _, ⟨_, _, _, _⟩⟩ := s
  obtain ⟨_, _, ⟨_, _, _, _⟩⟩ := u
  simp only [State.hideTraffic, State.mk.injEq, Status.mk.injEq] at h
  simp only [State.withTraffic, State.mk.injEq, Status.mk.injEq]
  simp [h]

/-- A word run on states that differ in traffic only gives states that differ in traffic only. -/
theorem runWord_hideTraffic (w : Word) {s u : State} (h : s.hideTraffic = u.hideTraffic) :
    ∃ t v, runWord w s = .next t ∧ runWord w u = .next v ∧ t.hideTraffic = v.hideTraffic ∧
      t.port = s.port ∧ t.status.ovr = s.status.ovr ∧ t.busy = false := by
  obtain ⟨v', r, b, info, he, -⟩ := runWord_shape w u
  refine ⟨(v'.complete r b info).withTraffic s.status.ovr s.port s.reads s.draws, _, ?_, he, rfl, rfl, rfl, rfl⟩
  conv_lhs => rw [eq_withTraffic h]
  rw [runWord_withTraffic, he]
  rfl

/-- No command reads the latency count, and none leaves one. -/
theorem runWord_setInflight (w : Word) (s : State) (j : Option InFlight) :
    runWord w (s.setInflight j) = runWord w s := by
  unfold runWord
  split
  · next i _ => cases i <;> rfl
  · rfl

/-- Whether a step faults does not depend on the traffic. -/
theorem resultLegal_of_hideTraffic {s u : State} (h : s.hideTraffic = u.hideTraffic) :
    s.resultLegal = u.resultLegal := by
  have := congrArg (fun x : State => x.resultLegal) h
  exact this

/-! ### Inversion: what one cycle can do -/

/-- Everything a step that goes on can be: a reset cycle, a ready cycle, or a busy cycle. -/
theorem step_cases {s t : State} (h : step s = .next t) :
   s.resultLegal = true ∧
   ((s.presented.reset = true ∧ t = s.popPort.hardReset) ∨
    (s.presented.reset = false ∧ s.inflight = none ∧ readyCycle s.presented.txn s.popPort = .next t) ∨
    (s.presented.reset = false ∧ ∃ j, s.inflight = some j ∧ advance j (busyTransaction s.presented.txn s.popPort) = .next t)) := by
  cases hl : s.resultLegal with
  | false => rw [step_fault hl] at h; cases h
  | true =>
    refine ⟨rfl, ?_⟩
    cases hr : s.presented.reset with
    | true => rw [step_reset hl hr] at h; cases h; exact .inl ⟨rfl, rfl⟩
    | false =>
      right
      cases hi : s.inflight with
      | none => rw [step_ready hl hr hi] at h; exact .inl ⟨rfl, rfl, h⟩
      | some j => rw [step_busy hl hr hi] at h; exact .inr ⟨rfl, j, rfl, h⟩

/-- What running a word keeps. -/
theorem runWord_keeps {w : Word} {s t : State} (h : runWord w s = .next t) : t.cmd = s.cmd ∧ t.status.ovr = s.status.ovr ∧ t.inflight = none := by
  obtain ⟨s', r, b, info, he, hc, -⟩ := runWord_shape w s
  rw [he] at h; cases h
  exact ⟨hc.cmd, by simp [hc.status], rfl⟩

/-- Everything a ready cycle can do. -/
theorem readyCycle_cases {x : Option Txn} {s t : State} (h : readyCycle x s = .next t) :
   (t = s ∧ (x = none ∨ ∃ a d, x = some (.write a d 0#4))) ∨ (∃ a, x = some (.read a) ∧ t = s.respond (s.readWindow a)) ∨
   (∃ a d m, x = some (.write a d m) ∧ m ≠ 0#4 ∧ target a = .cmd ∧ ((latency (merge s.cmd d m) = 0 ∧ runWord (merge s.cmd d m) (s.setCmd (merge s.cmd d m)) = .next t) ∨
      (latency (merge s.cmd d m) ≠ 0 ∧ t = s.accept (merge s.cmd d m)))) ∨
   (∃ a d m, x = some (.write a d m) ∧ m ≠ 0#4 ∧ target a ≠ .cmd ∧ t = s.writeWindow (target a) d m) := by
  unfold readyCycle at h
  split at h
  · cases h; simp
  · next a => cases h; exact .inr (.inl ⟨a, rfl, rfl⟩)
  · next a d m =>
    split at h
    · next hm => cases h; subst hm; exact .inl ⟨rfl, .inr ⟨a, d, rfl⟩⟩
    · next hm =>
      right; right
      split at h
      · next hc =>
        refine .inl ⟨a, d, m, rfl, hm, hc, ?_⟩
        rw [startCommand_eq] at h
        split at h
        · next hz => exact .inl ⟨hz, h⟩
        · next hz => cases h; exact .inr ⟨hz, rfl⟩
      · next hc => cases h; exact .inr ⟨a, d, m, rfl, hm, hc, rfl⟩

/-- Everything the sequencer can do in a busy cycle. -/
theorem advance_cases {j} {s t : State} (h : advance j s = .next t) : (j.remaining ≤ 1 ∧ runWord j.word s = .next t) ∨ (1 < j.remaining ∧ t = s.setInflight (some { j with remaining := j.remaining - 1})) := by
  unfold advance at h
  split at h
  · next hz => exact .inl ⟨hz, h⟩
  · next hz => cases h; exact .inr ⟨by omega, rfl⟩

/-- Busy cycles that differ in traffic only end in states that differ in traffic only. -/
theorem advance_hideTraffic (j) (s u : State) (h : s.hideTraffic = u.hideTraffic) : ∃ t v, advance j s = .next t ∧ advance j u = .next v ∧ t.hideTraffic = v.hideTraffic
   ∧ t.port = s.port ∧ t.status.ovr = s.status.ovr ∧ t.reads = s.reads ∧ t.draws = s.draws := by
  unfold advance
  split
  · obtain ⟨v', r, b, info, he, -⟩ := runWord_shape j.word u
    refine ⟨(v'.complete r b info).withTraffic s.status.ovr s.port s.reads s.draws, _, ?_, he, rfl, rfl, rfl, rfl, rfl⟩
    conv_lhs => rw [eq_withTraffic h]
    rw [runWord_withTraffic, he]
    rfl
  · refine ⟨_, _, rfl, rfl, ?_, rfl, rfl, rfl, rfl⟩
    rw [eq_withTraffic h]
    rfl

/-- A run of the machine, one step unfolded. -/
theorem core_run_succ {s s1 : State} (h : step s = .next s1) (k : Nat) : Sys2Proof.core.run (k+1) s = Sys2Proof.core.run k s1 := by
  have h' : Sys2Proof.core.step s = .next s1 := h
  simp only [Host.Core.run, h']

/-- The step of a ready state whose next cycle is known. -/
theorem step_of_presents_ready {s : State} {x : Option Txn} {rest : List PortCycle}
    (h : s.resultLegal = true) (hi : s.inflight = none) (hp : s.Presents x rest) :
    step s = readyCycle x (s.setPort rest) := by
  obtain ⟨h1, h2⟩ := presented_of_port hp
  rw [step_ready h (by rw [h1]) hi, h1, h2]

/-- The step of a busy state whose next cycle is known. -/
theorem step_of_presents_busy {s : State} {x : Option Txn} {rest : List PortCycle} {j : InFlight}
    (h : s.resultLegal = true) (hi : s.inflight = some j) (hp : s.Presents x rest) :
    step s = advance j (busyTransaction x (s.setPort rest)) := by
  obtain ⟨h1, h2⟩ := presented_of_port hp
  rw [step_busy h (by rw [h1]) hi, h1, h2]

/-- The step of a ready state with a strobed write to any offset but CMD. -/
theorem step_of_presents_write {s : State} {a : BitVec 10} {d : Word} {m : BitVec 4} {rest : List PortCycle}
    (h : s.resultLegal = true) (hi : s.inflight = none) (hp : s.Presents (some (.write a d m)) rest)
    (hm : m ≠ 0#4) (hc : target a ≠ .cmd) :
    step s = .next ((s.setPort rest).writeWindow (target a) d m) := by
  rw [step_of_presents_ready h hi hp]
  simp [readyCycle, hm, hc]

/-- Bit 8 of the STATUS word is BUSY (10_state.md R24). -/
theorem statusWord_bit8 (s : State) : s.statusWord.getLsbD 8 = s.busy := by
  show (statusWord s.status s.busy).getLsbD 8 = s.busy
  simp only [statusWord, BitVec.getLsbD_append]
  cases s.busy <;> simp

/-- A host transaction presented to a ready machine. -/
theorem hostTransaction_ready {s : State} (h : s.resultLegal = true) (hi : s.inflight = none) (x : Txn) :
    hostTransaction x s = readyCycle (some x) s :=
  step_of_presents_ready (s := s.setPort ({ reset := false, txn := some x } :: s.port)) h hi rfl

/-- A host transaction presented to a busy machine. -/
theorem hostTransaction_busy {s : State} {j : InFlight} (h : s.resultLegal = true)
    (hi : s.inflight = some j) (x : Txn) :
    hostTransaction x s = advance j (busyTransaction (some x) s) :=
  step_of_presents_busy (s := s.setPort ({ reset := false, txn := some x } :: s.port)) h hi rfl

end Sys2Proof.Machine
end

