-- ==== Sys2Proof/Laws/Port.lean ====
section
/-! SUPPORT. The derived values as numbers, the two words they are read as, the masks of narrow
registers, and the register map. -/

namespace Sys2Proof.Machine

/-! ### Derived values -/

/-- × 512 is exact in 41 bits (42_lba.md R152; 43_partition_entry.md R179). -/
theorem times512_toNat (v : Word) : (times512 v).toNat = v.toNat * 512 := by
  have := v.isLt
  simp [times512, Nat.shiftLeft_eq]; omega

/-- A 41-bit value is its high and low words. -/
theorem toNat_split41 (v : BitVec 41) : 2^32 * ((v.extractLsb' 32 9).setWidth 32).toNat + (v.extractLsb' 0 32).toNat = v.toNat := by
  have := v.isLt
  simp only [BitVec.toNat_setWidth, BitVec.extractLsb'_toNat, Nat.shiftRight_eq_div_pow]; omega

/-- A 33-bit value is its high and low words. -/
theorem toNat_split33 (v : BitVec 33) : 2^32 * ((v.extractLsb' 32 1).setWidth 32).toNat + (v.extractLsb' 0 32).toNat = v.toNat := by
  have := v.isLt
  simp only [BitVec.toNat_setWidth, BitVec.extractLsb'_toNat, Nat.shiftRight_eq_div_pow]; omega

/-- END_LBA is exact in 33 bits (43_partition_entry.md R178). -/
theorem SlotBlock.endLba_toNat (e : SlotBlock) : e.endLba.toNat = if 0 < e.sectorCount.toNat then e.startLba.toNat + e.sectorCount.toNat - 1 else e.startLba.toNat := by
  have h1 := e.startLba.isLt; have h2 := e.sectorCount.isLt
  unfold SlotBlock.endLba
  split
  · next h => rw [h]; simp; omega
  · next h => 
    have : 0 < e.sectorCount.toNat := by
      rcases Nat.eq_zero_or_pos e.sectorCount.toNat with h0 | h0
      · exact absurd (BitVec.eq_of_toNat_eq (by simpa using h0)) h
      · exact h0
    rw [if_pos this]
    simp only [BitVec.toNat_sub, BitVec.toNat_add, BitVec.toNat_setWidth, BitVec.toNat_ofNat]
    omega

/-! ### The register map -/

/-- The reserved offsets (10_state.md R41). -/
theorem target_reserved (a : BitVec 10) :
    (0x214 ≤ a.toNat ∧ a.toNat < 0x220) ∨ (0x240 ≤ a.toNat ∧ a.toNat < 0x300) ∨
      (0x300 ≤ a.toNat ∧ 0x34 ≤ a.toNat % 0x40) →
    target a = .reserved ∨ target a = .slot (slotAt a) .reserved := by
  revert a; decide +kernel

/-- A strobed write while BUSY = 0 to a register writes the merged word under its access rules. -/
theorem writeStores_of_target {s : State} (hl : s.resultLegal = true) (hi : s.inflight = none)
    {a : BitVec 10} {t : Target} (ht : target a = t) (hc : t ≠ .cmd) (hs : ∀ off, t ≠ .sector off) :
    s.WriteStores a fun w => s.writeRegister w t := by
  subst ht
  intro d m hm
  rw [hostTransaction_ready hl hi]
  simp only [readyCycle, hm, hc, if_false]
  congr 1
  unfold State.writeWindow
  split
  · next h => exact absurd h (hs _)
  · rfl

/-- A slot block written is the one read back, and the others stay. -/
theorem State.slot_setSlot (s : State) (i k : Slot) (b : SlotBlock) :
    (s.setSlot i b).slot k = if k = i then b else s.slot k := by
  fin_cases i <;> fin_cases k <;> rfl

/-! ### Masks -/

/-- Bits outside a mask that are all 0. -/
theorem and_not_eq_zero (w m : Word) (h : ∀ i, i < 32 → m.getLsbD i = false → w.getLsbD i = false) : w &&& ~~~m = 0#32 := by
  ext i hi
  have := h i hi
  simp only [BitVec.getElem_and, BitVec.getElem_not, BitVec.getElem_zero]
  rw [← BitVec.getLsbD_eq_getElem, ← BitVec.getLsbD_eq_getElem]
  cases hm : m.getLsbD i <;> simp_all

/-- Two words that agree on a mask. -/
theorem and_mask_eq (v w m : Word) (h : ∀ i, i < 32 → m.getLsbD i = true → v.getLsbD i = w.getLsbD i) : v &&& m = w &&& m := by
  ext i hi
  have := h i hi
  simp only [BitVec.getElem_and]
  rw [← BitVec.getLsbD_eq_getElem, ← BitVec.getLsbD_eq_getElem, ← BitVec.getLsbD_eq_getElem]
  cases hm : m.getLsbD i <;> simp_all

/-- A word kept in an n-bit register keeps its low n bits and reads 0 above them. -/
theorem setWidth_and_mask {n : Nat} {m : Word} (hm : ∀ i, i < 32 → m.getLsbD i = decide (i < n)) (w : Word) :
   ((w.setWidth n).setWidth 32 : Word) &&& m = w &&& m ∧ ((w.setWidth n).setWidth 32 : Word) &&& ~~~m = 0#32 := by
  constructor
  · apply and_mask_eq; intro i hi h; rw [hm i hi] at h; simp at h; simp [hi, h]
  · apply and_not_eq_zero; intro i hi h; rw [hm i hi] at h; simp at h; simp [BitVec.getLsbD_setWidth]; omega

end Sys2Proof.Machine
end

