-- ==== Sys2Proof/Tests/Slice0.lean ====
section
/-! SUPPORT. Tests with expected values taken from spec/95_test_vectors.md, and for every obligation with
hypotheses a witness that meets them. -/

namespace Sys2Proof.Tests

open Sys2Proof Sys2Proof.Machine

/-! ### Helpers -/

/-- One field of the next state of an outcome. -/
def fieldOf {α : Type} (f : State → α) : Host.Outcome State Fault Refusal → Option α
  | .next t => some (f t)
  | .fault _ => none
  | .refused _ => none

/-- One field after the one step that runs a command word. -/
def afterWord {α : Type} (w : Nat) (f : State → α) (s : State) : Option α :=
  fieldOf f (step (s.withFetchWord 32 w))

/-- One field after the one step of a transaction. -/
def afterTxn {α : Type} (x : Txn) (f : State → α) (s : State) : Option α := fieldOf f (hostTransaction x s)

/-- A CHS address by its three registers. -/
def chsOf (c h s : Nat) : Chs := { cyl := BitVec.ofNat 16 c, head := BitVec.ofNat 16 h, sect := BitVec.ofNat 16 s }

/-- Reset with three CHS registers. -/
def withChs (c h s : Nat) : State := { State.reset with chs := chsOf c h s }

/-- Reset with LEN. -/
def withLen (n : Nat) : State := { State.reset with len := BitVec.ofNat 16 n }

/-- Reset with bytes of SECTOR stored from an offset on. -/
def withBytes (a : Nat) (bs : List Byte) : State := { State.reset with sector := Memory.writeBytes [] a bs }

/-- Reset with a signed SECTOR. -/
def signed : State := withBytes 0x1FE [0x55#8, 0xAA#8]

/-- Reset with one slot. -/
def withSlot (i : Slot) (e : SlotBlock) : State := State.reset.setSlot i e

/-- Reset with a command in flight. -/
def busyWith (w : Word) (n : Nat) : State :=
  { State.reset with cmd := w, inflight := some { word := w, remaining := n } }

/-- The state with one transaction presented. -/
def presenting (x : Txn) (s : State) : State := s.setPort [{ reset := false, txn := some x }]

/-- The entry of 95 section 2.5, second row. -/
def linuxEntry : List Byte :=
  [0x80#8, 0x20#8, 0x21#8, 0x00#8, 0x83#8, 0xFE#8, 0xFF#8, 0xFF#8,
   0x00#8, 0x08#8, 0x00#8, 0x00#8, 0x00#8, 0x20#8, 0x03#8, 0x00#8]

/-- A present slot with an in-range start CHS at the upper bounds of R131. -/
def fullSlot : SlotBlock :=
  { SlotBlock.zero with valid := true, startChsValid := true, endChsValid := true,
                        startChs := chsOf 1023 255 63, endChs := chsOf 1023 254 63 }

/-- 95 section 2.6, third row: the start CHS fails first. -/
def badStart : SlotBlock :=
  { SlotBlock.zero with valid := true, startChsValid := true, endChsValid := true,
                        startChs := chsOf 1024 0 1, endChs := chsOf 0 0 64 }

/-- 95 section 2.6, fourth row: the start CHS is absent, the end CHS fails. -/
def badEnd : SlotBlock := { badStart with startChsValid := false }

/-- 95 section 2.6, second row: a slot without CHS values. -/
def rawSlot : SlotBlock :=
  { SlotBlock.zero with valid := true, ptype := 0x99#8, startLba := 206848#32, sectorCount := 256#32 }

/-- 95 section 2.9, last row: slots 2 and 3 both fail. -/
def twoBadSlots : State :=
  (withSlot 2 { SlotBlock.zero with valid := true, endChsValid := true, endChs := chsOf 1024 0 0 }).setSlot 3
    { SlotBlock.zero with valid := true, startChsValid := true, startChs := chsOf 0 256 0 }

/-! ### WellFormed: each check refuses a term -/

theorem test_opAssigned_refuses : CommandWord.opAssigned 0x000003FF#32 = false := by decide

theorem test_reservedClear_refuses_low : CommandWord.reservedClear 0x00000420#32 = false := by decide

theorem test_reservedClear_refuses_high : CommandWord.reservedClear 0x80000001#32 = false := by decide

theorem test_slotAllowed_refuses : CommandWord.slotAllowed 0x00000101#32 = false := by decide

theorem test_ignAllowed_refuses : CommandWord.ignAllowed 0x00010010#32 = false := by decide

theorem test_wellFormed_accepts : CommandWord.wellFormed 0x00000310#32 = true := by decide

/-- The five ill-formed words of 95 section 2.10. -/
theorem test_wellFormed_refuses :
    CommandWord.wellFormed 0x00000000#32 = false ∧ CommandWord.wellFormed 0x00000101#32 = false ∧
    CommandWord.wellFormed 0x00010010#32 = false ∧ CommandWord.wellFormed 0x00000420#32 = false ∧
    CommandWord.wellFormed 0x000003FF#32 = false := by decide

/-! ### Decode: words written bit by bit from 30_encoding.md R90, R91 -/

theorem test_decode_chsDec : decode 0b00000000000000000000000000000001#32 = .command .chsDec := by decide

theorem test_decode_chsEnc : decode 0b00000000000000000000000000000010#32 = .command .chsEnc := by decide

theorem test_decode_lbaDec : decode 0b00000000000000000000000000000011#32 = .command .lbaDec := by decide

theorem test_decode_lbaEnc : decode 0b00000000000000000000000000000100#32 = .command .lbaEnc := by decide

theorem test_decode_peDec : decode 0b00000000000000000000001000010000#32 = .command (.peDec 2) := by decide

theorem test_decode_peEnc : decode 0b00000000000000000000001100010001#32 = .command (.peEnc 3) := by decide

theorem test_decode_mbrDec : decode 0b00000000000000010000000000100000#32 = .command (.mbrDec true) := by
  decide

theorem test_decode_mbrEnc : decode 0b00000000000000000000000000100001#32 = .command .mbrEnc := by decide

theorem test_decodeTableWord : decodeTableWord 32 0x00000310 = some (.peDec 3) := by decide

theorem test_decodeTableWord_refuses : decodeTableWord 32 0x000003FF = none := by decide

/-! ### The commands (95 section 2) -/

/-- 95 section 2.2, the word written with reserved bits. -/
theorem test_chsDec :
    afterWord 0x01 (fun t => (t.chs, t.statusWord)) { State.reset with chsPacked := 0x123456#24 } =
      some (chsOf 18 0x56 52, 0x00000001#32) := by decide

theorem test_chsDec_splits_b1 :
    afterWord 0x01 State.chs { State.reset with chsPacked := 0xA5A110#24 } = some (chsOf 677 16 33) := by decide

theorem test_chsEnc :
    afterWord 0x02 (fun t => (t.chsPacked, t.statusWord)) (withChs 677 16 33) =
      some (0xA5A110#24, 0x00000001#32) := by decide

theorem test_chsEnc_range :
    afterWord 0x02 (fun t => (t.chsPacked, t.statusWord)) (withChs 1024 256 64) =
      some (0#24, 0x00001C04#32) := by decide

theorem test_lbaDec :
    afterWord 0x03 State.lbaValue { State.reset with lbaBytes := 0x12345678#32 } = some 0x12345678#32 := by
  decide

theorem test_lbaEnc :
    afterWord 0x04 State.lbaBytes { State.reset with lbaValue := 2048#32 } = some 0x00000800#32 := by decide

theorem test_peDec :
    afterWord 0x10 (fun t => ((t.slot 0).ctrlWord, (t.slot 0).startChs, (t.slot 0).endChs,
        (t.slot 0).startLba, (t.slot 0).sectorCount)) (withBytes 0x1BE linuxEntry) =
      some (0x0001830F#32, chsOf 0 32 33, chsOf 1023 254 63, 2048#32, 204800#32) := by decide

theorem test_peDec_short : afterWord 0x310 State.statusWord (withLen 509) = some 0x00000002#32 := by decide

theorem test_peEnc :
    afterWord 0x111 State.sector (withSlot 1 rawSlot) =
      some [(0x1D2, 0x99#8), (0x1D7, 0x28#8), (0x1D8, 0x03#8), (0x1DB, 0x01#8)] := by decide

theorem test_peEnc_range :
    afterWord 0x111 State.statusWord (withSlot 1 badStart) = some 0x00004404#32 ∧
    afterWord 0x111 State.statusWord (withSlot 1 badEnd) = some 0x00007004#32 := by decide

theorem test_mbrDec :
    afterWord 0x20 (fun t => (t.statusWord, t.readWindow 0x210#10, t.diskSig)) signed =
      some (0x00000201#32, 1#32, 0#32) := by decide

theorem test_mbrDec_results :
    afterWord 0x20 State.statusWord (withBytes 0x1FE [0xAA#8, 0x55#8]) = some 0x00000003#32 ∧
    afterWord 0x10020 State.statusWord State.reset = some 0x00000001#32 ∧
    afterWord 0x10020 State.statusWord (withLen 511) = some 0x00000002#32 := by decide

theorem test_mbrEnc :
    afterWord 0x21 (fun t => (t.sector, t.len))
        { withLen 3 with diskSig := 0x12345678#32, diskSigValid := true } =
      some ([(0x1B8, 0x78#8), (0x1B9, 0x56#8), (0x1BA, 0x34#8), (0x1BB, 0x12#8), (0x1FE, 0x55#8),
        (0x1FF, 0xAA#8)], 0x200#16) := by decide

theorem test_mbrEnc_range : afterWord 0x21 State.statusWord twoBadSlots = some 0x0000A404#32 := by decide

/-- 95 section 2.10: a word that names no command. -/
theorem test_illegal :
    afterWord 0x101 (fun t => (t.statusWord, t.cmd)) State.reset = some (0x00000005#32, 0x00000101#32) := by decide

/-! ### The host port (95 section 2.10) -/

theorem test_write_strobed :
    afterTxn (.write 0x1FC#10 0xAA550000#32 0b1100#4) State.sector State.reset =
      some [(0x1FE, 0x55#8), (0x1FF, 0xAA#8)] := by decide

theorem test_write_ignores_low_bits :
    afterTxn (.write 0x1FE#10 0x12345678#32 0b1111#4) State.sector State.reset =
      some [(0x1FC, 0x78#8), (0x1FD, 0x56#8), (0x1FE, 0x34#8), (0x1FF, 0x12#8)] := by decide

theorem test_chsPacked_reserved_bits :
    afterTxn (.write 0x22C#10 0xFF123456#32 0b1111#4) (fun t => t.readWindow 0x22C#10) State.reset =
      some 0x00123456#32 := by decide

theorem test_typeKnown_ignores_write :
    afterTxn (.write 0x300#10 0x00008300#32 0b1111#4) (fun t => t.readWindow 0x300#10) State.reset =
      some 0x00018300#32 := by decide

theorem test_lbaByteOffset :
    ({ State.reset with lbaValue := 0xFFFFFFFF#32 }).readWindow 0x238#10 = 0xFFFFFE00#32 ∧
    ({ State.reset with lbaValue := 0xFFFFFFFF#32 }).readWindow 0x23C#10 = 0x000001FF#32 := by decide

theorem test_endLba_carries :
    (withSlot 2 { SlotBlock.zero with startLba := 0xFFFFFFFF#32, sectorCount := 2#32 }).readWindow 0x3A4#10 =
      0x00000000#32 ∧
    (withSlot 2 { SlotBlock.zero with startLba := 0xFFFFFFFF#32, sectorCount := 2#32 }).readWindow 0x3A8#10 =
      0x00000001#32 := by decide

theorem test_endLba_empty :
    (withSlot 0 { SlotBlock.zero with startLba := 100#32 }).readWindow 0x324#10 = 100#32 := by decide

theorem test_byteCount :
    (withSlot 3 { SlotBlock.zero with sectorCount := 204800#32 }).readWindow 0x3EC#10 = 0x06400000#32 := by decide

/-- The write while BUSY of 95 section 2.10: dropped, OVR set, the decoded cylinder kept. -/
theorem test_busy_write_dropped :
    afterTxn (.write 0x220#10 5#32 0b1111#4) (fun t => (t.statusWord, t.chs.cyl))
        { busyWith 1#32 1 with chsPacked := 0x004100#24 } = some (0x80000001#32, 256#16) := by decide

theorem test_status_write_clears_ovr :
    afterTxn (.write 0x204#10 0x80000000#32 0b1111#4) State.statusWord
        { State.reset with status := { State.reset.status with result := 1#4, ovr := true } } =
      some 0x00000001#32 := by decide

/-! ### Witnesses: codes and outcomes -/

theorem witness_EncodeUndoesDecode : decode 0x00000311#32 = .command (.peEnc 3) := by decide

theorem witness_DecodeAcceptsExactlyWellFormedWords :
    CommandWord.wellFormed 0x00010020#32 = true ∧ CommandWord.wellFormed 0x00010021#32 = false := by decide

theorem witness_IllegalWordWritesStatusOnly : CommandWord.wellFormed 0x00000000#32 = false := by decide

theorem witness_OutcomeTableIsComplete :
    fieldOf (fun t => t.status.result) (runWord 0x10#32 (withLen 461)) = some 2#4 ∧
    fieldOf (fun t => t.status.result) (runWord 0x20#32 (withLen 511)) = some 2#4 ∧
    fieldOf (fun t => t.status.result) (runWord 0x20#32 State.reset) = some 3#4 ∧
    fieldOf (fun t => t.status.result) (runWord 0x02#32 (withChs 1024 0 0)) = some 4#4 ∧
    fieldOf (fun t => t.status.result) (runWord 0x111#32 (withSlot 1 badEnd)) = some 4#4 ∧
    fieldOf (fun t => t.status.result) (runWord 0x21#32 twoBadSlots) = some 4#4 ∧
    fieldOf (fun t => t.status.result) (runWord 0xFF#32 State.reset) = some 5#4 := by decide

theorem witness_FailedCommandWritesStatusOnly :
    ∃ t, runWord 0x10#32 { withLen 461 with cmd := 0x10#32 } = .next t ∧ t.status.result ≠ 1#4 :=
  ⟨_, rfl, by decide⟩

/-! ### Witnesses: CHS and LBA -/

theorem witness_ChsEncPacksOrReportsRange :
    (withChs 1023 255 63).chs.InRange ∧ (withChs 0 0 0).chs.InRange ∧
    ¬ (withChs 1024 255 63).chs.InRange ∧ ¬ (withChs 1023 256 63).chs.InRange ∧
    ¬ (withChs 1023 255 64).chs.InRange := by decide

theorem witness_ChsEncodeThenDecode :
    (withChs 1023 255 63).chs.InRange ∧
    ∃ t, exec .chsEnc (withChs 1023 255 63) = .next t ∧
      ({ State.reset with chsPacked := 0xFFFFFF#24 }).chsPacked = t.chsPacked :=
  ⟨by decide, _, rfl, by decide⟩

theorem witness_ChsDecodeThenEncode :
    ∃ t, exec .chsDec { State.reset with chsPacked := 0xFFFFFF#24 } = .next t ∧
      (withChs 1023 255 63).chs = t.chs :=
  ⟨_, rfl, by decide⟩

/-! ### Witnesses: partition entries -/

theorem witness_PeDecLoadsSlotOrReportsShort :
    entryOffset 0 + 16 ≤ min (withLen 462).len.toNat 512 ∧ min (withLen 461).len.toNat 512 < entryOffset 0 + 16 ∧
    entryOffset 1 + 16 ≤ min (withLen 478).len.toNat 512 ∧ min (withLen 477).len.toNat 512 < entryOffset 1 + 16 ∧
    entryOffset 2 + 16 ≤ min (withLen 494).len.toNat 512 ∧ min (withLen 493).len.toNat 512 < entryOffset 2 + 16 ∧
    entryOffset 3 + 16 ≤ min (withLen 510).len.toNat 512 ∧ min (withLen 509).len.toNat 512 < entryOffset 3 + 16 ∧
    entryOffset 3 + 16 ≤ min (withLen 0xFFFF).len.toNat 512 := by decide

theorem witness_PeEncStoresEntryOrReportsRange :
    ((withSlot 3 fullSlot).slot 3).Encodable ∧ (withSlot 3 fullSlot).sector.wf ∧
    (State.reset.slot 0).Encodable ∧ ¬ ((withSlot 1 badStart).slot 1).Encodable ∧
    ¬ ((withSlot 1 badEnd).slot 1).Encodable :=
  ⟨by decide, by decide, by decide, by decide, by decide⟩

theorem witness_PeEncLeavesOtherBytes : ∃ t, exec (.peEnc 3) (withSlot 3 fullSlot) = .next t := ⟨_, rfl⟩

theorem witness_EntryEncodeThenDecode :
    (withSlot 3 fullSlot).sector.wf ∧ ((withSlot 3 fullSlot).slot 3).Encodable ∧
    entryOffset 3 + 16 ≤ (withSlot 3 fullSlot).len.toNat ∧
    ((withSlot 3 fullSlot).slot 3).valid = true ∧ ((withSlot 3 fullSlot).slot 3).startChsValid = true ∧
    ((withSlot 3 fullSlot).slot 3).endChsValid = true := by decide

theorem witness_EntryDecodeThenEncode :
    (withBytes 0x1BE linuxEntry).sector.wf ∧ entryOffset 0 + 16 ≤ (withBytes 0x1BE linuxEntry).len.toNat ∧
    entryOffset 3 + 16 ≤ (withLen 510).len.toNat := by decide

/-! ### Witnesses: the MBR sector -/

theorem witness_MbrDecOutcomes :
    (withLen 511).len.toNat < 512 ∧
    (512 ≤ State.reset.len.toNat ∧ ¬ State.reset.Signed) ∧
    (512 ≤ signed.len.toNat ∧ signed.Signed) := by decide

theorem witness_MbrDecReadsOnlyRecordBytes :
    (withBytes 0x1B7 [0x12#8]).len = (withBytes 0x1BC [0x34#8, 0x56#8]).len ∧
    ∀ a, (0x1B8 ≤ a ∧ a ≤ 0x1BB) ∨ (0x1BE ≤ a ∧ a ≤ 0x1FF) →
      (withBytes 0x1B7 [0x12#8]).sector.read a = (withBytes 0x1BC [0x34#8, 0x56#8]).sector.read a := by
  refine ⟨by decide, fun a h => ?_⟩
  show Memory.read [(0x1B7, 0x12#8)] a = Memory.read [(0x1BC, 0x34#8), (0x1BD, 0x56#8)] a
  simp only [Memory.read]
  rw [if_neg (by omega), if_neg (by omega), if_neg (by omega)]

theorem witness_MbrEncBuildsSector :
    ∀ i, ((withSlot 3 fullSlot).slot i).Encodable := by decide

theorem witness_MbrEncReportsLeastFailingSlot :
    ¬ (twoBadSlots.slot 2).Encodable ∧ (∀ k < 2, (twoBadSlots.slot k).Encodable) ∧
    ¬ ((withSlot 0 badStart).slot 0).Encodable ∧ ∀ k < 0, ((withSlot 0 badStart).slot k).Encodable :=
  ⟨by decide, by decide, by decide, by decide⟩

theorem witness_MbrEncodeThenDecode :
    ∃ t, exec .mbrEnc (withSlot 1 rawSlot) = .next t ∧ t.status.result = 1#4 := ⟨_, rfl, by decide⟩

theorem witness_MbrDecodeThenEncode :
    (∃ t, exec (.mbrDec false) signed = .next t ∧ t.status.result = 1#4) ∧
    ∃ t, exec (.mbrDec true) (withLen 0xFFFF) = .next t ∧ t.status.result = 1#4 :=
  ⟨⟨_, rfl, by decide⟩, _, rfl, by decide⟩

theorem witness_NonStoringCommandsLeaveSector : ∃ t, exec (.mbrDec true) signed = .next t := ⟨_, rfl⟩

/-! ### Witnesses: the host port -/

theorem witness_SectorWordReadsLittleEndian :
    127 < 128 ∧ (signed.readWindow (BitVec.ofNat 10 (4 * 127))) = 0xAA550000#32 := by decide

theorem witness_SectorWriteStoresStrobedBytes :
    127 < 128 ∧ (0b1000#4 : BitVec 4) ≠ 0#4 ∧
    (presenting (.write (BitVec.ofNat 10 (4 * 127)) 0#32 0b1000#4) signed).sector.wf ∧
    (presenting (.write (BitVec.ofNat 10 (4 * 127)) 0#32 0b1000#4) signed).resultLegal = true ∧
    (presenting (.write (BitVec.ofNat 10 (4 * 127)) 0#32 0b1000#4) signed).inflight = none ∧
    (presenting (.write (BitVec.ofNat 10 (4 * 127)) 0#32 0b1000#4) signed).Presents
      (some (.write (BitVec.ofNat 10 (4 * 127)) 0#32 0b1000#4)) [] := by decide

theorem witness_UnstrobedWriteHasNoEffect :
    (presenting (.write 0x200#10 0x21#32 0#4) State.reset).Presents (some (.write 0x200#10 0x21#32 0#4)) [] ∧
    (presenting (.write 0x3FF#10 0x21#32 0#4) (busyWith 1#32 1)).Presents
      (some (.write 0x3FF#10 0x21#32 0#4)) [] := by decide

theorem witness_LowAddressBitsIgnored :
    (presenting (.read 0x207#10) State.reset).Presents (some (.read 0x207#10)) [] ∧
    (presenting (.write 0x3FF#10 1#32 1#4) State.reset).Presents (some (.write 0x3FF#10 1#32 1#4)) [] := by decide

theorem witness_ReadyReadReturnsWindowWord :
    (presenting (.read 0x1FC#10) signed).resultLegal = true ∧
    (presenting (.read 0x1FC#10) signed).inflight = none ∧
    (presenting (.read 0x1FC#10) signed).Presents (some (.read 0x1FC#10)) [] := by decide

theorem witness_BusyReadsOnlyStatusExactly :
    (presenting (.read 0x204#10) (busyWith 1#32 1)).resultLegal = true ∧
    (presenting (.read 0x204#10) (busyWith 1#32 1)).inflight = some { word := 1#32, remaining := 1 } ∧
    (presenting (.read 0x204#10) (busyWith 1#32 1)).Presents (some (.read 0x204#10)) [] ∧
    (presenting (.read 0x208#10) (busyWith 1#32 2)).Presents (some (.read 0x208#10)) [] := by decide

theorem witness_BusyWriteDroppedAndSetsOvr :
    (presenting (.write 0x204#10 0x80000000#32 0b1000#4) (busyWith 1#32 1)).resultLegal = true ∧
    (presenting (.write 0x204#10 0x80000000#32 0b1000#4) (busyWith 1#32 1)).inflight =
      some { word := 1#32, remaining := 1 } ∧
    (0b1000#4 : BitVec 4) ≠ 0#4 ∧
    (presenting (.write 0x204#10 0x80000000#32 0b1000#4) (busyWith 1#32 1)).Presents
      (some (.write 0x204#10 0x80000000#32 0b1000#4)) [] := by decide

/-- Reset with OVR set and the write presented that clears it. -/
def ovrCleared : State :=
  presenting (.write 0x204#10 0x80000000#32 0b1111#4)
    { State.reset with status := { State.reset.status with ovr := true } }

theorem witness_OvrClearedOnlyByStatusWriteOrReset :
    ovrCleared.status.ovr = true ∧ ∃ t, step ovrCleared = .next t ∧ t.status.ovr = false :=
  ⟨by decide, _, rfl, by decide⟩

theorem witness_OvrSetOnlyByBusyWrite :
    ∃ t, step (presenting (.write 0x214#10 1#32 1#4) (busyWith 1#32 1)) = .next t ∧
      (presenting (.write 0x214#10 1#32 1#4) (busyWith 1#32 1)).status.ovr = false ∧
      (presenting (.write 0x214#10 1#32 1#4) (busyWith 1#32 1)).presented.reset = false ∧
      t.status.ovr = true :=
  ⟨_, rfl, by decide, by decide, by decide⟩

theorem witness_StatusWriteClearsOnlyOvr :
    (0b1111#4).getLsbD 3 = true ∧ ovrCleared.resultLegal = true ∧ ovrCleared.inflight = none ∧
    ovrCleared.Presents (some (.write 0x204#10 0x80000000#32 0b1111#4)) [] := by decide

/-- For RegisterWriteReadsBack and RegisterWriteLeavesOtherRegisters. -/
theorem witness_RegisterWrites :
    (presenting (.write 0x3E0#10 5#32 1#4) State.reset).resultLegal = true ∧
    (presenting (.write 0x3E0#10 5#32 1#4) State.reset).inflight = none ∧ (1#4 : BitVec 4) ≠ 0#4 ∧
    storesBits (target 0x208#10) = true ∧ storesBits (target 0x300#10) = true ∧
    storesBits (target 0x3E0#10) = true ∧ target 0x208#10 ≠ .slot 0 .ctrl ∧ target 0x3C0#10 = .slot 3 .ctrl ∧
    (presenting (.write 0x3E0#10 5#32 1#4) State.reset).Presents (some (.write 0x3E0#10 5#32 1#4)) [] := by decide

theorem witness_RegisterMapReads :
    (0x214 ≤ (0x21F#10).toNat ∧ (0x21F#10).toNat < 0x220) ∧ (0x240 ≤ (0x240#10).toNat ∧ (0x2FF#10).toNat < 0x300) ∧
    (0x300 ≤ (0x3F4#10).toNat ∧ 0x34 ≤ (0x3F4#10).toNat % 0x40) ∧ 0x34 ≤ (0x3FF#10).toNat % 0x40 := by decide

theorem witness_RegisterMapWrites :
    signed.resultLegal = true ∧ signed.inflight = none ∧ SlotBlock.zero = signed.slot 3 ∧
    (0b1000#4 : BitVec 4) ≠ 0#4 ∧ slotWindow 3 0x20 = 0x3E0#10 := by decide

theorem witness_ReadOnlyAndReservedIgnoreWrites :
    (presenting (.write 0x3FC#10 5#32 15#4) State.reset).resultLegal = true ∧
    (presenting (.write 0x3FC#10 5#32 15#4) State.reset).inflight = none ∧ 0x20C ≤ (0x3FC#10).toNat ∧
    0x20C ≤ (0x214#10).toNat ∧
    storesBits (target 0x214#10) = false ∧ storesBits (target 0x238#10) = false ∧
    storesBits (target 0x324#10) = false ∧ storesBits (target 0x3FC#10) = false ∧
    (presenting (.write 0x3FC#10 5#32 15#4) State.reset).Presents (some (.write 0x3FC#10 5#32 15#4)) [] := by decide

theorem witness_EndLbaReadsExactly :
    0 < ((withSlot 3 { SlotBlock.zero with sectorCount := 1#32 }).slot 3).sectorCount.toNat ∧
    ¬ 0 < (State.reset.slot 3).sectorCount.toNat := by decide

/-! ### Witnesses: the sequencer -/

/-- Reset with a CMD write presented. -/
def commanding : State := presenting (.write 0x200#10 0x21#32 15#4) State.reset

theorem witness_CmdWriteAcceptsCommand :
    (15#4 : BitVec 4) ≠ 0#4 ∧ commanding.resultLegal = true ∧ commanding.inflight = none ∧
    commanding.Presents (some (.write 0x200#10 0x21#32 15#4)) [] ∧ 0x21#32 = merge commanding.cmd 0x21#32 15#4 := by
  decide

/-- One witness per command: each is run by the step in the last cycle of its latency. -/
theorem witness_LastCycleRunsDecodedCommand :
    ∀ i ∈ [Instr.chsDec, .chsEnc, .lbaDec, .lbaEnc, .peDec 3, .peEnc 3, .mbrDec true, .mbrEnc],
      (busyWith (encode i) 1).resultLegal = true ∧ (busyWith (encode i) 1).presented.reset = false ∧
      (busyWith (encode i) 1).inflight = some { word := encode i, remaining := 1 } ∧
      decode (encode i) = .command i := by decide

theorem witness_FetchWordRunsCommand : State.reset.resultLegal = true := by decide

theorem witness_AcceptedCommandCompletes :
    (15#4 : BitVec 4) ≠ 0#4 ∧ commanding.resultLegal = true ∧ commanding.inflight = none ∧
    commanding.Presents (some (.write 0x200#10 0x21#32 15#4)) [] ∧
    0x21#32 = merge commanding.cmd 0x21#32 15#4 ∧
    ∀ c ∈ ([] : List PortCycle).take (latency 0x21#32), c.reset = false :=
  ⟨by decide, by decide, by decide, by decide, by decide, by simp⟩

theorem witness_InFlightCommandIsAtomic :
    (presenting (.write 0x1B8#10 5#32 15#4) (busyWith 0x21#32 2)).resultLegal = true ∧
    (presenting (.write 0x1B8#10 5#32 15#4) (busyWith 0x21#32 2)).inflight =
      some { word := 0x21#32, remaining := 2 } ∧
    ∀ c ∈ (presenting (.write 0x1B8#10 5#32 15#4) (busyWith 0x21#32 2)).port.take 2, c.reset = false := by
  decide

theorem witness_HandshakeDeliversResults :
    State.reset.resultLegal = true ∧ State.reset.inflight = none ∧ State.reset.port = [] ∧
    latency (encode .mbrEnc) < latency (encode .mbrEnc) + 1 :=
  ⟨by decide, by decide, by decide, Nat.lt_succ_self _⟩

/-! ### Witnesses: the invariant, faults and reset -/

theorem witness_StepKeepsInvariant :
    (busyWith 0x21#32 1).Inv ∧ ∃ t, step (busyWith 0x21#32 1) = .next t ∧ t.sector.length = 2 :=
  ⟨by decide, _, rfl, by decide⟩

theorem witness_StopsExactlyOnUnproducedResult :
    5 < ({ State.reset.status with result := 6#4 }).result.toNat ∧
    ({ State.reset.status with result := 5#4 }).result.toNat ≤ 5 := by decide

theorem witness_ResetCycleRestoresEverything :
    (busyWith 0x21#32 1).resultLegal = true ∧
    ((busyWith 0x21#32 1).setPort [{ reset := true, txn := some (.write 0x200#10 1#32 15#4) }]).port =
      [{ reset := true, txn := some (.write 0x200#10 1#32 15#4) }] := by decide

theorem witness_OutcomeChangesOnlyAtCompletion :
    ∃ t, step (busyWith 0x21#32 1) = .next t ∧ t.status.result ≠ (busyWith 0x21#32 1).status.result :=
  ⟨_, rfl, by decide⟩

/-- Acceptance changes CMD, whatever the latency. -/
theorem witness_CmdChangesOnlyAtAcceptance :
    ∃ t, step commanding = .next t ∧ t.cmd ≠ commanding.cmd := by
  have e : step commanding = startCommand 0x21#32 State.reset := by rfl
  rw [e, startCommand_eq]
  split
  · exact ⟨_, rfl, by decide⟩
  · exact ⟨_, rfl, by decide⟩

/-- A reset cycle changes CMD. -/
theorem witness_CmdChangesOnlyAtAcceptance_reset :
    ∃ t, step ((busyWith 0x21#32 1).setPort [{ reset := true, txn := none }]) = .next t ∧
      t.cmd ≠ (busyWith 0x21#32 1).cmd :=
  ⟨_, rfl, by decide⟩

end Sys2Proof.Tests
end

section
/-! The family 10_state.md, first part: what one cycle keeps and changes. The invariant, the commands that
leave SECTOR, OVR, the outcome fields of STATUS, CMD and the fault states, each derived from the inversion
lemmas `step_cases`, `readyCycle_cases` and `advance_cases`. -/

namespace Sys2Proof.Machine

/-! ### The invariant -/

/-- A transaction of a busy cycle leaves CMD, the in-flight command and the outcome of the last one. -/
theorem busyTransaction_frame (x : Option Txn) (s : State) :
    (busyTransaction x s).cmd = s.cmd ∧ (busyTransaction x s).inflight = s.inflight ∧
    (busyTransaction x s).status.result = s.status.result ∧
    (busyTransaction x s).status.sigOk = s.status.sigOk ∧
    (busyTransaction x s).status.range = s.status.range := by
  rw [eq_withTraffic (busyTransaction_keeps x s).1]
  exact ⟨rfl, rfl, rfl, rfl, rfl⟩

/-- Traffic is no part of the invariant. -/
theorem inv_of_hideTraffic {s u : State} (h : s.hideTraffic = u.hideTraffic) (hu : u.Inv) : s.Inv := by
  rw [eq_withTraffic h]
  exact hu

/-- Whatever a word does, its completion meets the invariant. -/
theorem runWord_inv {w : Word} {s t : State} (hs : s.sector.wf) (h : runWord w s = .next t) : t.Inv := by
  obtain ⟨s', r, b, info, he, hc, hr, -⟩ := runWord_shape w s
  obtain rfl : s'.complete r b info = t := by simpa [he] using h
  exact ⟨hc.wf hs, hr.consistent s', by simp⟩

/-- A strobed write to any offset but CMD keeps the invariant. -/
theorem writeWindow_inv {s : State} (h : s.Inv) (a : BitVec 10) (d : Word) (k : BitVec 4) :
    (s.writeWindow (target a) d k).Inv := by
  obtain ⟨hw, hs, hi⟩ := h
  obtain ⟨kcmd, kinflight, -, -, -, kresult, ksig, krange, -, ksector⟩ := writeWindow_keeps s (target a) d k
  refine ⟨?_, ?_, ?_⟩
  · by_cases ht : ∃ off, target a = .sector off
    · obtain ⟨off, ht⟩ := ht
      rw [ht]
      exact Memory.wf_writeStrobed hw (target_sector_lt ht) d k
    · rw [ksector fun off h => ht ⟨off, h⟩]
      exact hw
  · simpa only [Status.Consistent, kresult, ksig, krange] using hs
  · simpa only [kcmd, kinflight] using hi

/-- Settles O53: the fields at reset, evaluated. -/
theorem resetMeetsInvariant : Obligations.ResetMeetsInvariant := by
  unfold Obligations.ResetMeetsInvariant
  decide

theorem hardReset_inv (s : State) : s.hardReset.Inv :=
  inv_of_hideTraffic (u := State.reset) rfl resetMeetsInvariant

/-- A ready cycle keeps the invariant. -/
theorem readyCycle_inv {x : Option Txn} {s t : State} (hs : s.Inv) (h : readyCycle x s = .next t) : t.Inv := by
  rcases readyCycle_cases h with ⟨rfl, -⟩ | ⟨a, -, rfl⟩ | ⟨a, d, m, -, -, -, ⟨-, hrun⟩ | ⟨hlat, rfl⟩⟩ |
    ⟨a, d, m, -, -, -, rfl⟩
  · exact hs
  · exact inv_of_hideTraffic rfl hs
  · exact runWord_inv (s := s.setCmd (merge s.cmd d m)) hs.1 hrun
  · refine ⟨hs.1, hs.2.1, fun j hj => ?_⟩
    obtain rfl : InFlight.mk _ _ = j := Option.some.inj hj
    exact ⟨rfl, Nat.one_le_iff_ne_zero.mpr hlat⟩
  · exact writeWindow_inv hs a d m

/-- The sequencer's part of a busy cycle keeps the invariant. -/
theorem advance_inv {j : InFlight} {s t : State} (hs : s.Inv) (hj : s.inflight = some j)
    (h : advance j s = .next t) : t.Inv := by
  obtain ⟨hw, hst, hin⟩ := hs
  rcases advance_cases h with ⟨-, hrun⟩ | ⟨hrem, rfl⟩
  · exact runWord_inv hw hrun
  · refine ⟨hw, hst, fun j' hj' => ?_⟩
    obtain rfl : InFlight.mk _ _ = j' := Option.some.inj hj'
    exact ⟨(hin j hj).1, by simp; omega⟩

/-- Settles O52, by the three kinds of cycle. -/
theorem stepKeepsInvariant : Obligations.StepKeepsInvariant := by
  intro s t hs h
  have hpop : s.popPort.Inv := inv_of_hideTraffic rfl hs
  obtain ⟨-, ⟨-, rfl⟩ | ⟨-, -, hready⟩ | ⟨-, j, hj, hbusy⟩⟩ := step_cases h
  · exact hardReset_inv _
  · exact readyCycle_inv hpop hready
  · exact advance_inv (inv_of_hideTraffic (busyTransaction_keeps _ _).1 hpop)
      ((busyTransaction_frame _ _).2.1.trans hj) hbusy

/-! ### Commands -/

/-- Settles O7: a result other than OK has computed nothing. -/
theorem failedCommandWritesStatusOnly : Obligations.FailedCommandWritesStatusOnly := by
  intro w s t h hr
  obtain ⟨s', r, b, info, he, -, -, hfail, -⟩ := runWord_shape w { s with cmd := w }
  obtain rfl : s'.complete r b info = t := by simpa [he] using h
  have hne : r ≠ .ok := fun hok => hr (by rw [hok]; rfl)
  rw [hfail hne]
  rfl

/-- The commands that store no sector bytes leave SECTOR, CMD and LEN. -/
theorem exec_nonStoring {i : Instr} (s : State)
    (hi : i = .chsDec ∨ i = .chsEnc ∨ i = .lbaDec ∨ i = .lbaEnc ∨ (∃ k, i = .peDec k) ∨ ∃ g, i = .mbrDec g) :
    ∃ t, exec i s = .next t ∧ t.sector = s.sector ∧ t.cmd = s.cmd ∧ t.len = s.len := by
  rcases hi with rfl | rfl | rfl | rfl | ⟨k, rfl⟩ | ⟨g, rfl⟩
  · exact ⟨_, exec_chsDec s, rfl, rfl, rfl⟩
  · by_cases hr : s.chs.InRange
    · exact ⟨_, exec_chsEnc_ok hr, rfl, rfl, rfl⟩
    · exact ⟨_, exec_chsEnc_range hr, rfl, rfl, rfl⟩
  · exact ⟨_, exec_lbaDec s, rfl, rfl, rfl⟩
  · exact ⟨_, exec_lbaEnc s, rfl, rfl, rfl⟩
  · rcases Nat.lt_or_ge s.effLen (entryOffset k + 16) with hl | hl
    · exact ⟨_, exec_peDec_short hl, rfl, rfl, rfl⟩
    · exact ⟨_, exec_peDec_ok hl, rfl, rfl, rfl⟩
  · rcases Nat.lt_or_ge s.effLen 512 with hl | hl
    · exact ⟨_, exec_mbrDec_short hl, rfl, rfl, rfl⟩
    · by_cases hs : s.Signed ∨ g = true
      · exact ⟨_, exec_mbrDec_ok hl hs, rfl, rfl, rfl⟩
      · push Not at hs
        obtain rfl : g = false := by simpa using hs.2
        exact ⟨_, exec_mbrDec_nosig hl hs.1, rfl, rfl, rfl⟩

/-- Settles O28, command by command. -/
theorem nonStoringCommandsLeaveSector : Obligations.NonStoringCommandsLeaveSector := by
  intro i s t hi h
  obtain ⟨u, hu, hsector, hcmd, hlen⟩ := exec_nonStoring s hi
  obtain rfl : u = t := by simpa [hu] using h
  exact ⟨fun a => by rw [hsector], hcmd, hlen⟩

/-! ### What one cycle does to OVR, CMD and the outcome -/

/-- Everything that may clear OVR in a ready cycle (10_state.md R29). -/
theorem readyCycle_ovr {x : Option Txn} {s t : State} (h : readyCycle x s = .next t) :
    t.status.ovr = s.status.ovr ∨
    ∃ a d m, x = some (.write a d m) ∧ m ≠ 0#4 ∧ target a = .status ∧
      t.status.ovr = (s.status.ovr && !(merge s.statusWord d m).getLsbD 31) := by
  rcases readyCycle_cases h with ⟨rfl, -⟩ | ⟨a, -, rfl⟩ | ⟨a, d, m, -, -, -, ⟨-, hrun⟩ | ⟨-, rfl⟩⟩ |
    ⟨a, d, m, hx, hm, -, rfl⟩
  · exact .inl rfl
  · exact .inl rfl
  · exact .inl (runWord_keeps hrun).2.1
  · exact .inl rfl
  · by_cases ht : target a = .status
    · exact .inr ⟨a, d, m, hx, hm, ht, by rw [ht]; rfl⟩
    · obtain ⟨-, -, -, -, -, -, -, -, kstatus, -⟩ := writeWindow_keeps s (target a) d m
      exact .inl (by rw [kstatus ht])

/-- The sequencer itself leaves OVR: "Command completion never clears OVR" (10_state.md R29). -/
theorem advance_ovr {j : InFlight} {s t : State} (h : advance j s = .next t) : t.status.ovr = s.status.ovr := by
  rcases advance_cases h with ⟨-, hrun⟩ | ⟨-, rfl⟩
  · exact (runWord_keeps hrun).2.1
  · rfl

/-- OVR after a step without reset: a busy cycle adds what its write sets, and a ready cycle leaves OVR
unless it writes STATUS. -/
theorem step_ovr {s t : State} (h : step s = .next t) (hr : s.presented.reset = false) :
    (s.busy = true ∧ t.status.ovr = (s.status.ovr || s.presented.strobedWrite)) ∨
    (s.busy = false ∧ (t.status.ovr = s.status.ovr ∨
      ∃ a d m, s.presented.txn = some (.write a d m) ∧ m ≠ 0#4 ∧ target a = .status ∧
        t.status.ovr = (s.status.ovr && !(merge s.statusWord d m).getLsbD 31))) := by
  obtain ⟨-, ⟨hreset, -⟩ | ⟨-, hi, hready⟩ | ⟨-, j, hj, hbusy⟩⟩ := step_cases h
  · simp [hr] at hreset
  · exact .inr ⟨by simp [State.busy, hi], readyCycle_ovr (s := s.popPort) hready⟩
  · exact .inl ⟨by simp [State.busy, hj], (advance_ovr hbusy).trans (busyTransaction_keeps _ _).2.2⟩

/-- Settles O36: a step that clears OVR writes STATUS, since a busy cycle only adds to OVR. -/
theorem ovrClearedOnlyByStatusWriteOrReset : Obligations.OvrClearedOnlyByStatusWriteOrReset := by
  intro s t h hs ht
  cases hr : s.presented.reset with
  | true => exact .inl rfl
  | false =>
    right
    rcases step_ovr h hr with ⟨-, hovr⟩ | ⟨hb, hovr | ⟨a, d, m, hx, hm, hstatus, hovr⟩⟩
    · simp [hs, ht] at hovr
    · simp [hs, ht] at hovr
    · obtain ⟨hlo, hhi⟩ := (target_status_iff a).mp hstatus
      exact ⟨hb, a, d, m, hx, hm, hlo, hhi, by simpa [hs, ht] using hovr⟩

/-- Settles O37: from OVR = 0 only a busy cycle can set it. -/
theorem ovrSetOnlyByBusyWrite : Obligations.OvrSetOnlyByBusyWrite := by
  intro s t h hs hr
  rcases step_ovr h hr with ⟨hb, hovr⟩ | ⟨hb, hovr | ⟨a, d, m, -, -, -, hovr⟩⟩
  · simp [hovr, hs, hb]
  · simp [hovr, hs, hb]
  · simp [hovr, hs, hb]

/-- A busy cycle with OVR set ends as one without, but for OVR. -/
theorem advance_setOvr (j : InFlight) (s : State) :
    ∃ u, advance j s = .next u ∧
      advance j s.setOvr = .next { u with status := { u.status with ovr := true } } := by
  obtain ⟨u, -, hu, -, -, uport, -, ureads, udraws⟩ := advance_hideTraffic j s s rfl
  obtain ⟨t, u', ht, hu', hsame, tport, tovr, treads, tdraws⟩ := advance_hideTraffic j s.setOvr s rfl
  obtain rfl : u = u' := by simpa [hu] using hu'
  refine ⟨u, hu, ht.trans (congrArg _ ?_)⟩
  rw [eq_withTraffic hsame, tport, tovr, treads, tdraws]
  simp [State.withTraffic, uport, ureads, udraws]

/-- Settles O35: the dropped write is `setOvr` before the sequencer's part of the cycle. -/
theorem busyWriteDroppedAndSetsOvr : Obligations.BusyWriteDroppedAndSetsOvr := by
  intro s rest a d m j hl hi hm hp
  obtain ⟨u, hu, huOvr⟩ := advance_setOvr j (s.setPort rest)
  have hidle : step s.withIdleCycle = advance j (s.setPort rest) := by
    rw [step_of_presents_busy (s := s.withIdleCycle) (x := none) (rest := s.port.tail) hl hi rfl, hp]
    rfl
  refine ⟨u, hidle.trans hu, ?_⟩
  rw [step_of_presents_busy hl hi hp, ← huOvr]
  simp [busyTransaction, hm]

/-- Settles O57: every other kind of cycle keeps RESULT, SIG_OK and the RANGE fields. -/
theorem outcomeChangesOnlyAtCompletion : Obligations.OutcomeChangesOnlyAtCompletion := by
  intro s t h hne
  obtain ⟨-, ⟨hreset, -⟩ | ⟨-, hi, hready⟩ | ⟨-, j, hj, hbusy⟩⟩ := step_cases h
  · exact .inl hreset
  · rcases readyCycle_cases hready with ⟨rfl, -⟩ | ⟨a, -, rfl⟩ |
      ⟨a, d, m, hx, hm, hcmd, ⟨hlat, -⟩ | ⟨-, rfl⟩⟩ | ⟨a, d, m, -, -, -, rfl⟩
    · simp at hne
    · simp [State.respond] at hne
    · obtain ⟨hlo, hhi⟩ := (target_cmd_iff a).mp hcmd
      exact .inr (.inr ⟨hi, a, d, m, hx, hm, hlo, hhi, hlat⟩)
    · simp [State.accept] at hne
    · obtain ⟨-, -, -, -, -, kresult, ksig, krange, -, -⟩ := writeWindow_keeps s.popPort (target a) d m
      simp [kresult, ksig, krange] at hne
  · rcases advance_cases hbusy with ⟨hlast, -⟩ | ⟨-, rfl⟩
    · exact .inr (.inl ⟨j, hj, hlast⟩)
    · obtain ⟨-, -, kresult, ksig, krange⟩ := busyTransaction_frame s.presented.txn s.popPort
      simp [kresult, ksig, krange] at hne

/-- Settles O58: no other write, no command and no busy cycle writes CMD. -/
theorem cmdChangesOnlyAtAcceptance : Obligations.CmdChangesOnlyAtAcceptance := by
  intro s t h hne
  obtain ⟨-, ⟨hreset, -⟩ | ⟨-, hi, hready⟩ | ⟨-, j, hj, hbusy⟩⟩ := step_cases h
  · exact .inl hreset
  · right
    rcases readyCycle_cases hready with ⟨rfl, -⟩ | ⟨a, -, rfl⟩ |
      ⟨a, d, m, hx, hm, hcmd, hacc⟩ | ⟨a, d, m, -, -, -, rfl⟩
    · simp at hne
    · simp [State.respond] at hne
    · obtain ⟨hlo, hhi⟩ := (target_cmd_iff a).mp hcmd
      refine ⟨hi, a, d, m, hx, hm, hlo, hhi, ?_⟩
      rcases hacc with ⟨-, hrun⟩ | ⟨-, rfl⟩
      · exact (runWord_keeps hrun).1
      · rfl
    · exact absurd (writeWindow_keeps s.popPort (target a) d m).1 hne
  · obtain ⟨kcmd, -⟩ := busyTransaction_frame s.presented.txn s.popPort
    rcases advance_cases hbusy with ⟨-, hrun⟩ | ⟨-, rfl⟩
    · exact absurd ((runWord_keeps hrun).1.trans kcmd) hne
    · exact absurd kcmd hne

/-- A ready cycle always goes on. -/
theorem readyCycle_next (x : Option Txn) (s : State) : ∃ t, readyCycle x s = .next t := by
  unfold readyCycle
  split
  · exact ⟨_, rfl⟩
  · exact ⟨_, rfl⟩
  · split
    · exact ⟨_, rfl⟩
    · split
      · rw [startCommand_eq]
        split
        · exact runWord_next _ _
        · exact ⟨_, rfl⟩
      · exact ⟨_, rfl⟩

/-- A step from a state whose RESULT is produced always goes on. -/
theorem steps_of_resultLegal {s : State} (h : s.resultLegal = true) : s.Steps := by
  unfold State.Steps
  cases hr : s.presented.reset with
  | true => exact ⟨_, step_reset h hr⟩
  | false =>
    cases hi : s.inflight with
    | none =>
      rw [step_ready h hr hi]
      exact readyCycle_next _ _
    | some j =>
      rw [step_busy h hr hi]
      obtain ⟨t, -, ht, -⟩ := advance_hideTraffic j (busyTransaction s.presented.txn s.popPort) _ rfl
      exact ⟨t, ht⟩

/-- Settles O54: a step faults by `resultLegal` alone. -/
theorem stopsExactlyOnUnproducedResult : Obligations.StopsExactlyOnUnproducedResult := by
  intro s
  by_cases hle : s.status.result.toNat ≤ 5
  · obtain ⟨t, ht⟩ := steps_of_resultLegal ((resultLegal_iff s).mpr hle)
    simp [State.Steps, ht, hle]
  · have hfault : step s = .fault .resultNeverProduced :=
      step_fault (by rwa [← Bool.not_eq_true, resultLegal_iff])
    simp [State.Steps, hfault, hle, Nat.lt_of_not_le hle]

end Sys2Proof.Machine
end

section
/-! The family 10_state.md, second part: the register map, offset by offset, read and written. -/

namespace Sys2Proof.Machine

/-! ### Reads of the register map -/

/-- The register at a word-aligned offset of a slot block (10_state.md R35). -/
theorem target_slotWindow (i : Slot) : ∀ off < 0x40, off % 4 = 0 →
    target (slotWindow i off) = .slot i (slotRegAt off) := by
  revert i; decide +kernel

/-- The word at a word-aligned offset of a slot block. -/
theorem readWindow_slotWindow (s : State) (i : Slot) {off : Nat} (h : off < 0x40) (h4 : off % 4 = 0) :
    s.readWindow (slotWindow i off) = (s.slot i).readReg (slotRegAt off) := by
  rw [State.readWindow, target_slotWindow i off h h4]
  rfl

/-- SLOT_CTRL, field by field (10_state.md R36). -/
theorem SlotBlock.ctrlWord_toNat (e : SlotBlock) :
    e.ctrlWord.toNat = e.valid.toNat + 2 * e.bootable.toNat + 4 * e.startChsValid.toNat +
      8 * e.endChsValid.toNat + 2 ^ 8 * e.ptype.toNat + 2 ^ 16 * (knownType e.ptype).toNat := by
  simp only [SlotBlock.ctrlWord, SlotBlock.typeKnown, toNat_append, BitVec.toNat_ofBool, BitVec.toNat_ofNat]
  omega

/-- The STATUS word, field by field (10_state.md R24). -/
theorem statusWord_toNat (st : Status) (busy : Bool) :
    (statusWord st busy).toNat = st.result.toNat + 2 ^ 8 * busy.toNat + 2 ^ 9 * st.sigOk.toNat +
      2 ^ 10 * st.range.cyl.toNat + 2 ^ 11 * st.range.head.toNat + 2 ^ 12 * st.range.sect.toNat +
      2 ^ 13 * st.range.inEnd.toNat + 2 ^ 14 * st.range.slot.val + 2 ^ 31 * st.ovr.toNat := by
  simp only [statusWord, toNat_append, BitVec.toNat_ofBool, BitVec.toNat_ofNat]
  omega

/-- Settles O38: 0x204 is STATUS. -/
theorem statusWordLayout : Obligations.StatusWordLayout := fun s => statusWord_toNat s.status s.busy

/-- Settles O45: offset 0 of a slot block is SLOT_CTRL. -/
theorem slotCtrlReadsFieldsAndVerdict : Obligations.SlotCtrlReadsFieldsAndVerdict := by
  refine ⟨fun s i => ?_, by decide, by decide, by decide, by decide, by decide, by decide⟩
  have hread : s.readWindow (BitVec.ofNat 10 (0x300 + 0x40 * i.val)) = (s.slot i).ctrlWord :=
    readWindow_slotWindow s i (off := 0x00) (by decide) (by decide)
  rw [hread]
  exact SlotBlock.ctrlWord_toNat _

/-- The stored registers of a slot block but SLOT_CTRL, at their offsets (10_state.md R35, R37, R38). -/
theorem readWindow_slot_registers (s : State) (i : Slot) :
    (s.readWindow (slotWindow i 0x04)).toNat = (s.slot i).startChs.cyl.toNat ∧
    (s.readWindow (slotWindow i 0x08)).toNat = (s.slot i).startChs.head.toNat ∧
    (s.readWindow (slotWindow i 0x0C)).toNat = (s.slot i).startChs.sect.toNat ∧
    (s.readWindow (slotWindow i 0x10)).toNat = (s.slot i).endChs.cyl.toNat ∧
    (s.readWindow (slotWindow i 0x14)).toNat = (s.slot i).endChs.head.toNat ∧
    (s.readWindow (slotWindow i 0x18)).toNat = (s.slot i).endChs.sect.toNat ∧
    s.readWindow (slotWindow i 0x1C) = (s.slot i).startLba ∧
    s.readWindow (slotWindow i 0x20) = (s.slot i).sectorCount := by
  simp [readWindow_slotWindow, slotRegAt, SlotBlock.readReg, BitVec.toNat_setWidth_of_le, -BitVec.toNat_setWidth]

/-- Settles O59: each offset's target, read in the field that stands there. -/
theorem registerMapReads : Obligations.RegisterMapReads := by
  intro s
  refine ⟨rfl, BitVec.toNat_setWidth_of_le (by decide), rfl, ?_, BitVec.toNat_setWidth_of_le (by decide),
    BitVec.toNat_setWidth_of_le (by decide), BitVec.toNat_setWidth_of_le (by decide),
    BitVec.toNat_setWidth_of_le (by decide), rfl, rfl, readWindow_slot_registers s, fun a ha => ?_⟩
  · exact (BitVec.toNat_setWidth_of_le (by decide)).trans (BitVec.toNat_ofBool _)
  · rw [State.readWindow]
    rcases target_reserved a ha with h | h <;> rw [h] <;> rfl

/-- Settles O55, over the 1024 offsets of the window. -/
theorem resetReadsAsListed : Obligations.ResetReadsAsListed :=
  ⟨by decide +kernel, rfl⟩

/-! ### Writes of the register map -/

/-- A write to any offset outside SECTOR writes the merged word to the register. -/
theorem writeWindow_register (s : State) {t : Target} (ht : ∀ off, t ≠ .sector off) (d : Word) (m : BitVec 4) :
    s.writeWindow t d m = s.writeRegister (merge (s.readTarget t) d m) t := by
  cases t with
  | sector off => exact absurd rfl (ht off)
  | _ => rfl

/-- A slot block written back is no change. -/
@[simp] theorem State.setSlot_slot_self (s : State) (i : Slot) : s.setSlot i (s.slot i) = s := by
  simp [State.setSlot, State.slot, State.setSlots]

/-- The derived and reserved words of a slot block ignore writes (10_state.md R39, R40, R41). -/
theorem SlotBlock.writeReg_of_not_storesBits (e : SlotBlock) (w : Word) {i : Slot} {r : SlotReg}
    (h : storesBits (.slot i r) = false) : e.writeReg w r = e := by
  cases r with
  | endLbaLo | endLbaHi | byteCountLo | byteCountHi | reserved => rfl
  | _ => cases h

/-- Every word that stores no bits, STATUS apart, ignores writes through `writeRegister`. -/
theorem writeRegister_of_not_storesBits (s : State) (w : Word) {t : Target} (h : storesBits t = false)
    (hst : t ≠ .status) : s.writeRegister w t = s := by
  cases t with
  | status => exact absurd rfl hst
  | slot i r => simp [State.writeRegister, SlotBlock.writeReg_of_not_storesBits _ _ h]
  | sector | cmd | lbaByteOffsetLo | lbaByteOffsetHi | reserved => rfl
  | _ => cases h

/-- SECTOR, CMD and STATUS stand below 0x20C (10_state.md section 3). -/
theorem target_of_ge {a : BitVec 10} (h : 0x20C ≤ a.toNat) :
    target a ≠ .cmd ∧ target a ≠ .status ∧ ∀ off, target a ≠ .sector off := by
  refine ⟨mt (target_cmd_iff a).mp (by omega), mt (target_status_iff a).mp (by omega), fun off => ?_⟩
  have := alignedOffset_eq a
  rw [target, if_neg (by omega)]
  split
  · unfold controlAt
    split <;> simp
  · simp

/-- Settles O42: such a write reaches `writeRegister`, which stores nothing. -/
theorem readOnlyAndReservedIgnoreWrites : Obligations.ReadOnlyAndReservedIgnoreWrites := by
  intro s rest a d m hl hi ha hst hp
  obtain ⟨hcmd, hstatus, hsector⟩ := target_of_ge ha
  by_cases hm : m = 0#4
  · rw [step_of_presents_ready hl hi hp, readyCycle, if_pos hm]
    rfl
  · rw [step_of_presents_write hl hi hp hm hcmd, writeWindow_register _ hsector,
      writeRegister_of_not_storesBits _ _ hst hstatus]
    rfl

/-- Bit 31 of a merged word is lane 3's (20_memory.md R64). -/
theorem merge_bit31 (old d : Word) {m : BitVec 4} (hm : m.getLsbD 3 = true) :
    (merge old d m).getLsbD 31 = d.getLsbD 31 := by
  simp only [merge, le32, BitVec.getLsbD_append]
  simp [mergeLane, hm, byteOf]

/-- Settles O39: with lane 3 strobed, the merged bit 31 is that of the data. -/
theorem statusWriteClearsOnlyOvr : Obligations.StatusWriteClearsOnlyOvr := by
  intro s rest d m hm hl hi hp
  have hne : m ≠ 0#4 := by rintro rfl; cases hm
  have ht : target 0x204#10 = .status := rfl
  rw [step_of_presents_write hl hi hp hne (by simp [ht]), ht, writeWindow_register _ (by simp)]
  simp only [State.writeRegister, State.writeStatus, merge_bit31 _ _ hm]
  rfl

/-- The offsets that store bits, over the 1024 of the window (10_state.md section 3). -/
theorem storesBits_target_iff (a : BitVec 10) : storesBits (target a) = true ↔
    (0x208 ≤ a.toNat ∧ a.toNat < 0x214) ∨ (0x220 ≤ a.toNat ∧ a.toNat < 0x238) ∨
    (0x300 ≤ a.toNat ∧ a.toNat % 0x40 < 0x24) := by
  revert a; decide +kernel

/-- A strobed write to a slot block writes the merged word to its register. -/
theorem writeStores_slotWindow {s : State} (hl : s.resultLegal = true) (hi : s.inflight = none)
    (i : Slot) {off : Nat} (h : off < 0x40) (h4 : off % 4 = 0) :
    s.WriteStores (slotWindow i off) fun w => s.setSlot i ((s.slot i).writeReg w (slotRegAt off)) :=
  writeStores_of_target hl hi (target_slotWindow i off h h4) nofun nofun

/-- Settles O60: each offset's target, written by `writeRegister`. -/
theorem registerMapWrites : Obligations.RegisterMapWrites := by
  refine ⟨fun s hl hi => ?_, fun s i k b => ⟨State.slot_setSlot s i k b, rfl⟩, storesBits_target_iff⟩
  have reg {a : BitVec 10} {t : Target} := writeStores_of_target (a := a) (t := t) hl hi
  refine ⟨reg (t := .len) rfl nofun nofun, reg (t := .diskSig) rfl nofun nofun,
    reg (t := .recCtrl) rfl nofun nofun, reg (t := .chsCyl) rfl nofun nofun,
    reg (t := .chsHead) rfl nofun nofun, reg (t := .chsSect) rfl nofun nofun,
    reg (t := .chsPacked) rfl nofun nofun, reg (t := .lbaValue) rfl nofun nofun,
    reg (t := .lbaBytes) rfl nofun nofun, ?_⟩
  rintro i _ rfl
  have slot {off : Nat} := writeStores_slotWindow (off := off) hl hi i
  exact ⟨slot (by decide) rfl, slot (by decide) rfl, slot (by decide) rfl, slot (by decide) rfl,
    slot (by decide) rfl, slot (by decide) rfl, slot (by decide) rfl, slot (by decide) rfl,
    slot (by decide) rfl⟩

/-- A register of a slot block written leaves the other stored registers of the block. -/
theorem SlotBlock.readReg_writeReg_ne (e : SlotBlock) (w : Word) {i k : Slot} {r q : SlotReg} (hne : q ≠ r)
    (hr : storesBits (.slot i r) = true) (hq : storesBits (.slot k q) = true) :
    (e.writeReg w r).readReg q = e.readReg q := by
  cases r with
  | endLbaLo | endLbaHi | byteCountLo | byteCountHi | reserved => cases hr
  | _ =>
    cases q with
    | endLbaLo | endLbaHi | byteCountLo | byteCountHi | reserved => cases hq
    | _ => simp_all [SlotBlock.writeReg, SlotBlock.readReg, SlotBlock.ctrlWord, SlotBlock.typeKnown]

/-- A register that stores bits, written, leaves every other such register. -/
theorem readTarget_writeRegister_ne (s : State) (w : Word) {t q : Target} (hne : q ≠ t)
    (ht : storesBits t = true) (hq : storesBits q = true) :
    (s.writeRegister w t).readTarget q = s.readTarget q := by
  cases t with
  | sector | cmd | status | lbaByteOffsetLo | lbaByteOffsetHi | reserved => cases ht
  | slot i r =>
    cases q with
    | slot k q =>
      simp only [State.writeRegister, State.readTarget, State.setSlot_slot]
      split
      · next hk => subst hk; exact SlotBlock.readReg_writeReg_ne _ w (by simpa using hne) ht hq
      · rfl
    | _ => rfl
  | _ =>
    cases q with
    | sector | cmd | status | lbaByteOffsetLo | lbaByteOffsetHi | reserved => cases hq
    | _ => simp_all [State.writeRegister, State.readTarget]

/-- SECTOR, CMD and STATUS are no registers that store bits. -/
theorem ne_of_storesBits {t : Target} (h : storesBits t = true) :
    t ≠ .cmd ∧ t ≠ .status ∧ ∀ off, t ≠ .sector off := by
  refine ⟨?_, ?_, ?_⟩
  · rintro rfl; cases h
  · rintro rfl; cases h
  · rintro off rfl; cases h

/-- Settles O41: the write goes to one register, whose frame is `readTarget_writeRegister_ne`. -/
theorem registerWriteLeavesOtherRegisters : Obligations.RegisterWriteLeavesOtherRegisters := by
  intro s rest a d m hl hi hm hst hp
  obtain ⟨hcmd, hstatus, hsector⟩ := ne_of_storesBits hst
  obtain ⟨kcmd, kinflight, -, -, -, -, -, -, kstatus, ksector⟩ :=
    writeWindow_keeps (s.setPort rest) (target a) d m
  refine ⟨_, step_of_presents_write hl hi hp hm hcmd, fun r hr hne => ?_, fun x => ?_, kcmd, kstatus hstatus,
    kinflight.trans hi⟩
  · rw [writeWindow_register _ hsector, readTarget_writeRegister_ne _ _ hne hst hr]
    rfl
  · rw [ksector hsector]
    rfl

end Sys2Proof.Machine
end

section
/-! The family 20_memory.md: the words of SECTOR and of the registers through the port, what a transaction
cannot see or change, and the atomicity of a command in flight. -/

namespace Sys2Proof.Machine

/-! ### The words of SECTOR -/

/-- The word at offset 4k is SECTOR's (20_memory.md R61). -/
theorem target_sectorWord {k : Nat} (hk : k < 128) : target (BitVec.ofNat 10 (4 * k)) = .sector (4 * k) := by
  have haligned : alignedOffset (BitVec.ofNat 10 (4 * k)) = 4 * k := by
    rw [alignedOffset_eq, BitVec.toNat_ofNat]
    omega
  rw [target, haligned, if_pos (by omega)]

/-- Settles O29: the word at 4k is `le32` of its four bytes. -/
theorem sectorWordReadsLittleEndian : Obligations.SectorWordReadsLittleEndian := by
  intro s k hk
  rw [State.readWindow, target_sectorWord hk]
  exact le32_toNat _ _ _ _

/-- Settles O27: 0x1FC is word 127 of SECTOR, whose two high bytes are the signature's. -/
theorem signatureSeenThroughPort : Obligations.SignatureSeenThroughPort := by
  intro s
  have hword : (s.readWindow 0x1FC#10).toNat = leNumber (s.sector.read 0x1FC) (s.sector.read 0x1FD)
      (s.sector.read 0x1FE) (s.sector.read 0x1FF) := sectorWordReadsLittleEndian s 127 (by decide)
  have hsigned : s.Signed ↔ (s.sector.read 0x1FE).toNat = 0x55 ∧ (s.sector.read 0x1FF).toNat = 0xAA :=
    and_congr BitVec.toNat_inj.symm BitVec.toNat_inj.symm
  have h0 := (s.sector.read 0x1FC).isLt
  have h1 := (s.sector.read 0x1FD).isLt
  have h2 := (s.sector.read 0x1FE).isLt
  have h3 := (s.sector.read 0x1FF).isLt
  rw [hword, hsigned, leNumber]
  omega

/-- Settles O30: the write reaches `writeStrobed`, which stores byte by byte. -/
theorem sectorWriteStoresStrobedBytes : Obligations.SectorWriteStoresStrobedBytes := by
  intro s rest k d m hk hm hw hl hi hp
  have ht := target_sectorWord hk
  obtain ⟨hin, hout⟩ := Memory.read_writeStrobed hw.1 (4 * k) d m
  have hstep : step s = .next ((s.setPort rest).setSector (s.sector.writeStrobed (4 * k) d m)) := by
    rw [step_of_presents_write hl hi hp hm (by simp [ht]), ht]
    rfl
  refine ⟨_, hstep, fun j hj => ?_, hout, rfl⟩
  rw [State.setSector_sector, hin j hj, apply_ite BitVec.toNat, byteOf_toNat]

/-! ### What the port does not see -/

/-- Two transactions that do the same in a ready and in a busy cycle make the same step. -/
theorem step_congr_txn {s : State} {x y : Option Txn} {rest : List PortCycle} (hp : s.Presents x rest)
    (hready : ∀ u, readyCycle x u = readyCycle y u) (hbusy : ∀ u, busyTransaction x u = busyTransaction y u) :
    step s = step (s.setPort ({ reset := false, txn := y } :: rest)) := by
  cases hl : s.resultLegal with
  | false => exact (step_fault hl).trans (Eq.symm (step_fault hl))
  | true =>
    cases hi : s.inflight with
    | none =>
      rw [step_of_presents_ready hl hi hp, hready]
      exact Eq.symm (step_of_presents_ready hl hi rfl)
    | some j =>
      rw [step_of_presents_busy hl hi hp, hbusy]
      exact Eq.symm (step_of_presents_busy hl hi rfl)

/-- Settles O31: neither kind of cycle does anything for S = 0. -/
theorem unstrobedWriteHasNoEffect : Obligations.UnstrobedWriteHasNoEffect := by
  intro s rest a d hp
  have hidle : s.withIdleCycle = s.setPort ({ reset := false, txn := none } :: rest) := by
    rw [State.withIdleCycle, hp]
    rfl
  rw [hidle]
  exact step_congr_txn hp (fun _ => rfl) fun _ => rfl

/-- Settles O32: both kinds of cycle look at A through `target` alone. -/
theorem lowAddressBitsIgnored : Obligations.LowAddressBitsIgnored := by
  intro s rest a d m
  refine ⟨fun hp => step_congr_txn hp (fun u => ?_) fun u => ?_,
    fun hp => step_congr_txn hp (fun u => ?_) fun _ => rfl⟩
  · simp only [readyCycle, State.readWindow, target_and_mask]
  · simp only [busyTransaction, target_and_mask]
  · simp only [readyCycle, target_and_mask]

/-- Settles O33: a ready cycle answers a read with the window's word. -/
theorem readyReadReturnsWindowWord : Obligations.ReadyReadReturnsWindowWord := by
  intro s rest a hl hi hp
  rw [step_of_presents_ready hl hi hp]
  rfl

/-! ### Registers read back -/

/-- SLOT_CTRL written keeps the fields of R36 and reads 0 elsewhere, TYPE_KNOWN at bit 16 apart. -/
theorem SlotBlock.ctrlWord_writeReg_getLsbD (e : SlotBlock) (w : Word) {i : Nat} (hi : i < 32) (h16 : i ≠ 16) :
    (e.writeReg w .ctrl).ctrlWord.getLsbD i = (w &&& 0x0000FF0F#32).getLsbD i := by
  simp only [SlotBlock.ctrlWord, SlotBlock.writeReg, BitVec.getLsbD_append, BitVec.getLsbD_extractLsb',
    BitVec.getLsbD_ofBool, BitVec.getLsbD_and]
  interval_cases i <;> simp_all

/-- SLOT_CTRL written reads back the writable bits, and 0 in the reserved ones (10_state.md R36). -/
theorem SlotBlock.ctrlWord_writeReg_masked (e : SlotBlock) (w : Word) :
    (e.writeReg w .ctrl).ctrlWord &&& 0x0000FF0F#32 = w &&& 0x0000FF0F#32 ∧
    (e.writeReg w .ctrl).ctrlWord &&& 0xFFFE00F0#32 = 0#32 := by
  refine ⟨and_mask_eq _ _ _ fun i hi hbit => ?_, and_not_eq_zero _ 0x0001FF0F#32 fun i hi hbit => ?_⟩
  · have h16 : i ≠ 16 := by rintro rfl; cases hbit
    rw [ctrlWord_writeReg_getLsbD e w hi h16, BitVec.getLsbD_and, hbit, Bool.and_true]
  · have h16 : i ≠ 16 := by rintro rfl; cases hbit
    have hmask : ∀ i < 32, (0x0001FF0F#32).getLsbD i = false → (0x0000FF0F#32).getLsbD i = false := by decide
    rw [ctrlWord_writeReg_getLsbD e w hi h16, BitVec.getLsbD_and, hmask i hi hbit, Bool.and_false]

/-- A stored register of a slot block but SLOT_CTRL keeps the writable bits of the word written, and no
others. -/
theorem SlotBlock.readReg_writeReg_masked (e : SlotBlock) (w : Word) {i : Slot} {r : SlotReg}
    (h : storesBits (.slot i r) = true) (hr : r ≠ .ctrl) :
    (e.writeReg w r).readReg r &&& writableBits (.slot i r) = w &&& writableBits (.slot i r) ∧
    (e.writeReg w r).readReg r &&& ~~~(writableBits (.slot i r)) = 0#32 := by
  cases r with
  | ctrl => exact absurd rfl hr
  | startCyl | startHead | startSect | endCyl | endHead | endSect =>
    exact setWidth_and_mask (m := 0x0000FFFF#32) (by decide) w
  | startLba | sectorCount => exact setWidth_and_mask (n := 32) (m := 0xFFFFFFFF#32) (by decide) w
  | endLbaLo | endLbaHi | byteCountLo | byteCountHi | reserved => cases h

/-- A register that stores bits, SLOT_CTRL apart, keeps the writable bits of the word written, and no
others. -/
theorem readTarget_writeRegister_masked (s : State) (w : Word) {t : Target} (ht : storesBits t = true)
    (hc : ∀ i, t ≠ .slot i .ctrl) :
    (s.writeRegister w t).readTarget t &&& writableBits t = w &&& writableBits t ∧
    (s.writeRegister w t).readTarget t &&& ~~~(writableBits t) = 0#32 := by
  cases t with
  | sector | cmd | status | lbaByteOffsetLo | lbaByteOffsetHi | reserved => cases ht
  | len | chsCyl | chsHead | chsSect => exact setWidth_and_mask (m := 0x0000FFFF#32) (by decide) w
  | chsPacked => exact setWidth_and_mask (m := 0x00FFFFFF#32) (by decide) w
  | recCtrl =>
    have hbit : BitVec.ofBool (w.getLsbD 0) = w.setWidth 1 := BitVec.setWidth_one.symm
    simp only [State.writeRegister, State.readTarget, State.setDiskSigValid_diskSigValid, hbit]
    exact setWidth_and_mask (m := 0x00000001#32) (by decide) w
  | diskSig | lbaValue | lbaBytes => exact setWidth_and_mask (n := 32) (m := 0xFFFFFFFF#32) (by decide) w
  | slot i r =>
    have hr : r ≠ .ctrl := fun h => hc i (by rw [h])
    simpa [State.writeRegister, State.readTarget] using SlotBlock.readReg_writeReg_masked (s.slot i) w ht hr

/-- Settles O40: the merged word goes to the one register, and SLOT_CTRL has its own masks. -/
theorem registerWriteReadsBack : Obligations.RegisterWriteReadsBack := by
  intro s rest a d m hl hi hm hst hp
  obtain ⟨hcmd, -, hsector⟩ := ne_of_storesBits hst
  have hread : ((s.setPort rest).writeWindow (target a) d m).readWindow a =
      ((s.setPort rest).writeRegister (merge (s.readWindow a) d m) (target a)).readTarget (target a) := by
    rw [writeWindow_register _ hsector]
    rfl
  refine ⟨_, step_of_presents_write hl hi hp hm hcmd, ?_⟩
  rw [hread]
  by_cases hc : ∃ i, target a = .slot i .ctrl
  · obtain ⟨i, hc⟩ := hc
    obtain ⟨hwritable, hzero⟩ := ((s.setPort rest).slot i).ctrlWord_writeReg_masked (merge (s.readWindow a) d m)
    have hctrl : ((s.setPort rest).writeRegister (merge (s.readWindow a) d m) (.slot i .ctrl)).readTarget
        (.slot i .ctrl) = (((s.setPort rest).slot i).writeReg (merge (s.readWindow a) d m) .ctrl).ctrlWord := by
      simp [State.writeRegister, State.readTarget, SlotBlock.readReg]
    rw [hc, hctrl]
    exact ⟨hwritable, fun h => absurd rfl (h i), fun _ _ => hzero⟩
  · push Not at hc
    obtain ⟨hwritable, hzero⟩ :=
      readTarget_writeRegister_masked (s.setPort rest) (merge (s.readWindow a) d m) hst hc
    exact ⟨hwritable, fun _ => hzero, fun i h => absurd h (hc i)⟩

/-! ### The command in flight -/

/-- A busy cycle is the sequencer's part of it on a state that differs from the one before in traffic only. -/
theorem step_inFlight {s : State} {j : InFlight} (hl : s.resultLegal = true) (hr : s.presented.reset = false)
    (hi : s.inflight = some j) :
    ∃ s1, step s = advance j s1 ∧ s1.hideTraffic = s.hideTraffic ∧ s1.port = s.port.tail ∧
      s1.status.ovr = (s.status.ovr || s.presented.strobedWrite) :=
  ⟨_, step_busy hl hr hi, busyTransaction_keeps s.presented.txn s.popPort⟩

/-- The cycles ahead, the next one first: an empty port is an idle host. -/
theorem any_take_succ_strobedWrite (s : State) (n : Nat) :
    (s.port.take (n + 1)).any PortCycle.strobedWrite =
      (s.presented.strobedWrite || (s.port.tail.take n).any PortCycle.strobedWrite) := by
  unfold State.presented
  cases s.port with
  | nil => simp [PortCycle.idle, PortCycle.strobedWrite]
  | cons c rest => simp

/-- No reset in the cycles ahead: none in the next one, and none in those after it. -/
theorem reset_false_of_take_succ {s : State} {n : Nat} (h : ∀ c ∈ s.port.take (n + 1), c.reset = false) :
    s.presented.reset = false ∧ ∀ c ∈ s.port.tail.take n, c.reset = false := by
  unfold State.presented
  cases hp : s.port with
  | nil => simp [PortCycle.idle]
  | cons c rest => simpa [hp] using h

/-- Settles O50, by induction on the remaining latency: each cycle leaves the word and all that it reads. -/
theorem inFlightCommandIsAtomic : Obligations.InFlightCommandIsAtomic := by
  rintro s ⟨w, r⟩ hl hi hrem hreset
  dsimp only at hrem hreset ⊢
  obtain ⟨n, rfl⟩ := Nat.exists_eq_add_of_le' hrem
  clear hrem
  induction n generalizing s with
  | zero =>
    obtain ⟨hnow, -⟩ := reset_false_of_take_succ hreset
    obtain ⟨s1, hstep, hsame, hport, hovr⟩ := step_inFlight hl hnow hi
    obtain ⟨t, u, ht, hu, htu, tport, tovr, tbusy⟩ := runWord_hideTraffic w hsame
    refine ⟨t, u, core_run_succ (hstep.trans ht) 0, hu, tbusy, htu, ?_, ?_⟩
    · rw [tport, hport, List.drop_one]
    · rw [tovr, hovr, any_take_succ_strobedWrite, List.take_zero, List.any_nil, Bool.or_false]
  | succ n ih =>
    obtain ⟨hnow, hlater⟩ := reset_false_of_take_succ hreset
    obtain ⟨s1, hstep, hsame, hport, hovr⟩ := step_inFlight hl hnow hi
    obtain ⟨u1, u, hu1, hu, hu1u, -⟩ := runWord_hideTraffic w hsame
    have hl1 : s1.resultLegal = true := (resultLegal_of_hideTraffic hsame).trans hl
    obtain ⟨t, u2, ht, hu2, tbusy, htu, tport, tovr⟩ :=
      ih (s1.setInflight (some { word := w, remaining := n + 1 })) hl1 rfl (by simpa [hport] using hlater)
    obtain rfl : u1 = u2 := by
      rw [runWord_setInflight, hu1] at hu2
      exact Host.Outcome.next.inj hu2
    refine ⟨t, u, (core_run_succ hstep _).trans ht, hu, tbusy, htu.trans hu1u, ?_, ?_⟩
    · rw [tport, State.setInflight_port, hport, List.drop_tail]
    · rw [tovr, State.setInflight_status, State.setInflight_port, hport, hovr,
        any_take_succ_strobedWrite s (n + 1), Bool.or_assoc]

end Sys2Proof.Machine
end

section
/-! The family 30_encoding.md, first part: command words. A word that the decoder accepts is assembled from
its three fields (`commandWord`), and on an assembled word the decoder is the dispatch on those fields. -/

namespace Sys2Proof

/-! ### The fields of an assembled word -/

@[simp] theorem opField_commandWord (op : Opcode) (s : Slot) (g : Bool) :
    (commandWord op s g).extractLsb' 0 8 = byteOfOpcode op := by
  apply BitVec.eq_of_toNat_eq
  have := (byteOfOpcode op).isLt
  rw [opField_toNat, commandWord_toNat]
  omega

@[simp] theorem slotField_commandWord (op : Opcode) (s : Slot) (g : Bool) :
    slotField (commandWord op s g) = s := by
  apply Fin.ext
  have := (byteOfOpcode op).isLt
  rw [slotField_val, commandWord_toNat]
  omega

@[simp] theorem ignField_commandWord (op : Opcode) (s : Slot) (g : Bool) :
    ignField (commandWord op s g) = g := by
  have := (byteOfOpcode op).isLt
  have := g.toNat_lt
  have h : (ignField (commandWord op s g)).toNat = g.toNat := by
    rw [ignField_toNat, commandWord_toNat]
    omega
  rw [Bool.eq_iff_iff, ← Bool.toNat_eq_one, h, Bool.toNat_eq_one]

@[simp] theorem reservedLow_commandWord (op : Opcode) (s : Slot) (g : Bool) :
    (commandWord op s g).extractLsb' 10 6 = 0#6 := by
  apply BitVec.eq_of_toNat_eq
  have := (byteOfOpcode op).isLt
  rw [reservedLow_toNat, commandWord_toNat, BitVec.toNat_ofNat]
  omega

@[simp] theorem reservedHigh_commandWord (op : Opcode) (s : Slot) (g : Bool) :
    (commandWord op s g).extractLsb' 17 15 = 0#15 := by
  apply BitVec.eq_of_toNat_eq
  have := (byteOfOpcode op).isLt
  have := g.toNat_lt
  rw [reservedHigh_toNat, commandWord_toNat, BitVec.toNat_ofNat]
  omega

/-- A word with clear reserved bits and an assigned opcode is assembled from its fields. -/
theorem eq_commandWord {w : Word} {op : Opcode} (hlow : w.extractLsb' 10 6 = 0#6)
    (hhigh : w.extractLsb' 17 15 = 0#15) (hop : opcodeOfByte (w.extractLsb' 0 8) = some op) :
    w = commandWord op (slotField w) (ignField w) := by
  apply BitVec.eq_of_toNat_eq
  rw [commandWord_toNat, byteOfOpcode_of_opcodeOfByte hop]
  exact toNat_of_reserved_clear hlow hhigh

/-! ### The dispatch -/

/-- The dispatch of R96 on an opcode and its operand fields, the reserved bits being clear. -/
def dispatch : Opcode → Slot → Bool → Decoded
  | .chsDec, s, g => decodePlain s g .chsDec
  | .chsEnc, s, g => decodePlain s g .chsEnc
  | .lbaDec, s, g => decodePlain s g .lbaDec
  | .lbaEnc, s, g => decodePlain s g .lbaEnc
  | .peDec, s, g => decodeSlotted g (.peDec s)
  | .peEnc, s, g => decodeSlotted g (.peEnc s)
  | .mbrDec, s, g => decodeFlagged s (.mbrDec g)
  | .mbrEnc, s, g => decodePlain s g .mbrEnc

/-- The decoder on an assembled word. -/
theorem decode_commandWord (op : Opcode) (s : Slot) (g : Bool) :
    decode (commandWord op s g) = dispatch op s g := by
  cases op <;> simp [decode, opcodeOfByte_byteOfOpcode, dispatch]

/-- A word that decodes to a command is an assembled one. -/
theorem exists_commandWord_of_decode {w : Word} {i : Instr} (h : decode w = .command i) :
    ∃ op s g, w = commandWord op s g := by
  by_cases hres : w.extractLsb' 10 6 ≠ 0#6 ∨ w.extractLsb' 17 15 ≠ 0#15
  · simp [decode, hres] at h
  · cases hop : opcodeOfByte (w.extractLsb' 0 8) with
    | none => simp [decode, hres, hop] at h
    | some op =>
      push Not at hres
      exact ⟨op, _, _, eq_commandWord hres.1 hres.2 hop⟩

theorem decodePlain_eq_command {s : Slot} {g : Bool} {i k : Instr} :
    decodePlain s g i = .command k ↔ s = 0 ∧ g = false ∧ i = k := by
  by_cases hs : s = 0
  · cases g <;> simp [decodePlain, hs]
  · simp [decodePlain, hs]

theorem decodeSlotted_eq_command {g : Bool} {i k : Instr} :
    decodeSlotted g i = .command k ↔ g = false ∧ i = k := by
  cases g <;> simp [decodeSlotted]

theorem decodeFlagged_eq_command {s : Slot} {i k : Instr} :
    decodeFlagged s i = .command k ↔ s = 0 ∧ i = k := by
  by_cases hs : s = 0 <;> simp [decodeFlagged, hs]

/-- The command that the dispatch names has the word of these fields. -/
theorem encode_of_dispatch {op : Opcode} {s : Slot} {g : Bool} {i : Instr}
    (h : dispatch op s g = .command i) : encode i = commandWord op s g := by
  cases op with
  | chsDec | chsEnc | lbaDec | lbaEnc | mbrEnc =>
    obtain ⟨rfl, rfl, rfl⟩ := decodePlain_eq_command.mp h
    rfl
  | peDec | peEnc =>
    obtain ⟨rfl, rfl⟩ := decodeSlotted_eq_command.mp h
    rfl
  | mbrDec =>
    obtain ⟨rfl, rfl⟩ := decodeFlagged_eq_command.mp h
    rfl

/-! ### The round trips -/

/-- Settles O2: every command's word is assembled, and the dispatch on its fields names the command. -/
theorem decodeUndoesEncode : Obligations.DecodeUndoesEncode := by
  intro i
  cases i <;> exact decode_commandWord _ _ _

/-- Settles O3: an accepted word is assembled from the fields that the dispatch reads. -/
theorem encodeUndoesDecode : Obligations.EncodeUndoesDecode := by
  intro w i h
  obtain ⟨op, s, g, rfl⟩ := exists_commandWord_of_decode h
  exact encode_of_dispatch (by rwa [decode_commandWord] at h)

/-! ### The well-formed words -/

/-- The word of a command is well formed. -/
theorem encode_wellFormed (i : Instr) : CommandWord.wellFormed (encode i) = true := by
  cases i with
  | chsDec => exact Laws.EncodeWellFormed.chsDec
  | chsEnc => exact Laws.EncodeWellFormed.chsEnc
  | lbaDec => exact Laws.EncodeWellFormed.lbaDec
  | lbaEnc => exact Laws.EncodeWellFormed.lbaEnc
  | peDec s => exact Laws.EncodeWellFormed.peDec s
  | peEnc s => exact Laws.EncodeWellFormed.peEnc s
  | mbrDec g => exact Laws.EncodeWellFormed.mbrDec g
  | mbrEnc => exact Laws.EncodeWellFormed.mbrEnc

/-- An assigned OP byte is one of the opcode map's (30_encoding.md R91). -/
theorem exists_opcode_of_opAssigned {w : Word} (h : CommandWord.opAssigned w = true) :
    ∃ op, opcodeOfByte (w.extractLsb' 0 8) = some op := by
  have hmap : ∀ b : Byte, [0x01, 0x02, 0x03, 0x04, 0x10, 0x11, 0x20, 0x21].contains b.toNat = true →
      (opcodeOfByte b).isSome = true := by decide +kernel
  rw [CommandWord.opAssigned, CommandWord.op, ← opField_toNat] at h
  exact Option.isSome_iff_exists.mp (hmap _ h)

/-- A well-formed word is an assembled one. -/
theorem exists_commandWord_of_wellFormed {w : Word} (h : CommandWord.wellFormed w = true) :
    ∃ op s g, w = commandWord op s g := by
  simp only [CommandWord.wellFormed, Bool.and_eq_true] at h
  obtain ⟨⟨⟨hop, hres⟩, -⟩, -⟩ := h
  obtain ⟨op, hop⟩ := exists_opcode_of_opAssigned hop
  simp only [CommandWord.reservedClear, CommandWord.reservedLow, CommandWord.reservedHigh, Bool.and_eq_true,
    beq_iff_eq, ← reservedLow_toNat, ← reservedHigh_toNat] at hres
  exact ⟨op, _, _, eq_commandWord (BitVec.eq_of_toNat_eq hres.1) (BitVec.eq_of_toNat_eq hres.2) hop⟩

/-- R94 (c) and (d) on an assembled word. -/
theorem wellFormed_commandWord {op : Opcode} {s : Slot} {g : Bool}
    (h : CommandWord.wellFormed (commandWord op s g) = true) :
    (s = 0 ∨ op = .peDec ∨ op = .peEnc) ∧ (g = false ∨ op = .mbrDec) := by
  revert s g
  cases op <;> decide

/-- Fields that R94 (c) and (d) allow name a command. -/
theorem dispatch_of_allowed {op : Opcode} {s : Slot} {g : Bool} (hs : s = 0 ∨ op = .peDec ∨ op = .peEnc)
    (hg : g = false ∨ op = .mbrDec) : ∃ i, dispatch op s g = .command i := by
  cases op with
  | chsDec | chsEnc | lbaDec | lbaEnc | mbrEnc =>
    obtain rfl : s = 0 := by simpa using hs
    obtain rfl : g = false := by simpa using hg
    exact ⟨_, rfl⟩
  | peDec | peEnc =>
    obtain rfl : g = false := by simpa using hg
    exact ⟨_, rfl⟩
  | mbrDec =>
    obtain rfl : s = 0 := by simpa using hs
    exact ⟨_, rfl⟩

/-- Settles O4: accepted words are encodings, and well-formed words have fields that the dispatch allows. -/
theorem decodeAcceptsExactlyWellFormedWords : Obligations.DecodeAcceptsExactlyWellFormedWords := by
  refine fun w => ⟨fun ⟨i, hi⟩ => encodeUndoesDecode w i hi ▸ encode_wellFormed i, fun h => ?_⟩
  obtain ⟨op, s, g, rfl⟩ := exists_commandWord_of_wellFormed h
  obtain ⟨hs, hg⟩ := wellFormed_commandWord h
  rw [decode_commandWord]
  exact dispatch_of_allowed hs hg

/-- PE_DEC and PE_ENC as the table of R101 writes them. -/
theorem encode_peDec_eq (s : Slot) : encode (.peDec s) = 0x00000010#32 ||| (BitVec.ofNat 32 s.val <<< 8) := by
  revert s; decide

theorem encode_peEnc_eq (s : Slot) : encode (.peEnc s) = 0x00000011#32 ||| (BitVec.ofNat 32 s.val <<< 8) := by
  revert s; decide

/-- Settles O1: the words of the table are the encodings. -/
theorem pseudoInstructionWordsDecode : Obligations.PseudoInstructionWordsDecode :=
  ⟨decodeUndoesEncode .chsDec, decodeUndoesEncode .chsEnc, decodeUndoesEncode .lbaDec,
    decodeUndoesEncode .lbaEnc, fun s => encode_peDec_eq s ▸ decodeUndoesEncode (.peDec s),
    fun s => encode_peEnc_eq s ▸ decodeUndoesEncode (.peEnc s), decodeUndoesEncode (.mbrDec false),
    decodeUndoesEncode (.mbrDec true), decodeUndoesEncode .mbrEnc⟩

end Sys2Proof
end

section
/-! The family 30_encoding.md, second part: the sequencer. Words that name no command, the acceptance of a
CMD write, and the completion of an accepted word. -/

namespace Sys2Proof.Machine

/-! ### Running a word -/

theorem runWord_of_command {w : Word} {i : Instr} (h : decode w = .command i) (s : State) :
    runWord w s = exec i s := by
  simp only [runWord, h]

theorem runWord_of_illegal {w : Word} {why : IllegalReason} (h : decode w = .illegal why) (s : State) :
    runWord w s = .next s.raiseIllegal := by
  simp only [runWord, h]

/-- A word that is not well formed decodes to a reason. -/
theorem decode_illegal_of_not_wellFormed {w : Word} (h : CommandWord.wellFormed w = false) :
    ∃ why, decode w = .illegal why := by
  cases hd : decode w with
  | command i => simp [(decodeAcceptsExactlyWellFormedWords w).mp ⟨i, hd⟩] at h
  | illegal why => exact ⟨why, rfl⟩

/-- Settles O5: the completion is `raiseIllegal`. -/
theorem illegalWordWritesStatusOnly : Obligations.IllegalWordWritesStatusOnly := by
  intro w s h
  obtain ⟨why, hd⟩ := decode_illegal_of_not_wellFormed h
  exact ⟨_, runWord_of_illegal hd s, ⟨rfl, rfl, rfl, rfl, rfl⟩, rfl⟩

/-! ### Acceptance and completion -/

/-- Settles O46: offset 0x200 is CMD, whose write starts the command. -/
theorem cmdWriteAcceptsCommand : Obligations.CmdWriteAcceptsCommand := by
  rintro s rest d w m hm hl hi hp rfl
  have hcmd : target 0x200#10 = .cmd := (target_cmd_iff _).mpr (by decide)
  rw [step_of_presents_ready hl hi hp]
  simp only [readyCycle, hm, hcmd, if_true, if_false]
  exact startCommand_eq _ _

/-- Settles O47: the sequencer's part of the last cycle runs the word. -/
theorem lastCycleRunsDecodedCommand : Obligations.LastCycleRunsDecodedCommand := by
  intro s j i hl hr hi hlast hd
  rw [step_busy hl hr hi, advance, if_pos hlast, runWord_of_command hd]

/-- A word of 32 bits is held whole. -/
theorem withFetchWord_toNat (s : State) (w : Word) : s.withFetchWord 32 w.toNat = s.lastCycleOf w := by
  rw [State.withFetchWord, Nat.mod_eq_of_lt w.isLt, BitVec.ofNat_toNat, BitVec.setWidth_eq]

/-- Settles O48: the state is in the last cycle of the command's latency, with nothing presented. -/
theorem fetchWordRunsCommand : Obligations.FetchWordRunsCommand := by
  intro s i hl
  rw [withFetchWord_toNat]
  exact ⟨_, lastCycleRunsDecodedCommand (s.lastCycleOf (encode i)) _ i hl rfl rfl (Nat.le_refl 1)
    (decodeUndoesEncode i), rfl⟩

/-- Settles O49: with latency 0 the acceptance cycle runs the word; otherwise the word is in flight, where
the rest of its latency is atomic (`inFlightCommandIsAtomic`). -/
theorem acceptedCommandCompletes : Obligations.AcceptedCommandCompletes := by
  intro s rest d w m hm hl hi hp hw hreset
  have hstep := cmdWriteAcceptsCommand s rest d w m hm hl hi hp hw
  obtain ⟨u', u, hu', hu, hsame, -, -, hbusy⟩ :=
    runWord_hideTraffic w (s := { s with port := rest, cmd := w }) (u := { s with cmd := w }) rfl
  rw [Nat.add_comm]
  by_cases hlat : latency w = 0
  · rw [if_pos hlat, hu'] at hstep
    rw [hlat]
    exact ⟨u', u, core_run_succ hstep 0, hu, hbusy, hsame⟩
  · rw [if_neg hlat] at hstep
    obtain ⟨t, v, ht, hv, htbusy, htv, -⟩ := inFlightCommandIsAtomic
      (State.setInflight { s with port := rest, cmd := w } (some { word := w, remaining := latency w }))
      { word := w, remaining := latency w } hl rfl (Nat.one_le_iff_ne_zero.mpr hlat) hreset
    obtain rfl : u' = v := by
      rw [runWord_setInflight, hu'] at hv
      exact Host.Outcome.next.inj hv
    exact ⟨t, u, (core_run_succ hstep _).trans ht, hu, htbusy, htv.trans hsame⟩

end Sys2Proof.Machine
end

section
/-! The family 41_chs.md: CHS_DEC and CHS_ENC. The commands' next states are those of `exec_chsDec`,
`exec_chsEnc_ok` and `exec_chsEnc_range`. R132 and R133 read the packed layout in them as arithmetic; R134 and
R135 need only that packing and unpacking undo each other. -/

namespace Sys2Proof.Machine

/-! ### The packed layout -/

/-- The layout of R130 in CHS_PACKED, as quotients and remainders of the 24-bit number. -/
theorem chsUnpack24_toNat (p : BitVec 24) :
    (chsUnpack24 p).head.toNat = p.toNat % 2 ^ 8 ∧
    (chsUnpack24 p).sect.toNat = p.toNat / 2 ^ 8 % 2 ^ 6 ∧
    (chsUnpack24 p).cyl.toNat = p.toNat / 2 ^ 14 % 2 ^ 2 * 2 ^ 8 + p.toNat / 2 ^ 16 := by
  obtain ⟨hhead, hsect, hcyl⟩ :=
    chsUnpack_unpackedFrom (p.extractLsb' 0 8) (p.extractLsb' 8 8) (p.extractLsb' 16 8)
  rw [chsUnpack24, hhead, hsect, hcyl]
  simp only [BitVec.extractLsb'_toNat, Nat.shiftRight_eq_div_pow]
  have := p.isLt
  omega

theorem chsUnpack24_inRange (p : BitVec 24) : (chsUnpack24 p).InRange := chsUnpack_inRange _ _ _

/-- The offset 0x22C reads CHS_PACKED zero-extended (10_state.md R32). -/
theorem readWindow_chsPacked_toNat (s : State) : (s.readWindow 0x22C#10).toNat = s.chsPacked.toNat :=
  BitVec.toNat_setWidth_of_le (by decide)

/-! ### The two commands -/

/-- Settles O8: the lanes of CHS_PACKED are unpacked, and any packing is in range. -/
theorem chsDecUnpacks : Obligations.ChsDecUnpacks := by
  refine ⟨decodeUndoesEncode .chsDec, fun s => ?_⟩
  obtain ⟨hhead, hsect, hcyl⟩ := chsUnpack24_toNat s.chsPacked
  exact ⟨_, exec_chsDec s, hhead, hsect, hcyl, chsUnpack24_inRange _, readWindow_chsPacked_toNat s,
    ⟨rfl, rfl, rfl, rfl, rfl⟩, rfl⟩

/-- Settles O9: in range the lanes are the packed bytes, out of range the causes are reported. -/
theorem chsEncPacksOrReportsRange : Obligations.ChsEncPacksOrReportsRange := by
  refine ⟨decodeUndoesEncode .chsEnc, fun s => ⟨fun h => ?_, fun h => ?_⟩⟩
  · exact ⟨_, exec_chsEnc_ok h, chsPack24_toNat h, ⟨rfl, rfl, rfl, rfl, rfl⟩, rfl⟩
  · exact ⟨_, exec_chsEnc_range h, ⟨rfl, rfl, rfl, rfl, rfl⟩, rfl⟩

/-! ### The round trips -/

/-- Settles O10: unpacking undoes packing in range (`chsUnpack24_pack24`). -/
theorem chsEncodeThenDecode : Obligations.ChsEncodeThenDecode := by
  refine fun s h => ⟨_, exec_chsEnc_ok h, fun t' hpacked => ⟨_, exec_chsDec t', ?_⟩⟩
  calc chsUnpack24 t'.chsPacked
    _ = chsUnpack24 (chsPack24 s.chs) := congrArg chsUnpack24 hpacked
    _ = s.chs := chsUnpack24_pack24 h

/-- Settles O11: an unpacked triple is in range, and packing undoes unpacking (`chsPack24_unpack24`). -/
theorem chsDecodeThenEncode : Obligations.ChsDecodeThenEncode := by
  refine fun s => ⟨_, exec_chsDec s, fun t' hchs => ?_⟩
  have hchs : t'.chs = chsUnpack24 s.chsPacked := hchs
  have hrange : t'.chs.InRange := hchs ▸ chsUnpack24_inRange s.chsPacked
  refine ⟨_, exec_chsEnc_ok hrange, rfl, ?_⟩
  calc chsPack24 t'.chs
    _ = chsPack24 (chsUnpack24 s.chsPacked) := congrArg chsPack24 hchs
    _ = s.chsPacked := chsPack24_unpack24 s.chsPacked

end Sys2Proof.Machine
end

section
/-! The family 42_lba.md: LBA_DEC, LBA_ENC and LBA_BYTE_OFFSET. The commands' next states are those of
`exec_lbaDec` and `exec_lbaEnc`, where assembling the lanes of a word has given the word back. -/

namespace Sys2Proof.Machine

/-- A word is the little-endian number of its lanes (42_lba.md R150). -/
theorem toNat_eq_leBytes (v : Word) :
    v.toNat = leByte v 0 + 2 ^ 8 * leByte v 1 + 2 ^ 16 * leByte v 2 + 2 ^ 24 * leByte v 3 := by
  calc v.toNat
    _ = (le32 (byteOf v 0) (byteOf v 1) (byteOf v 2) (byteOf v 3)).toNat := by rw [le32_byteOf]
    _ = leNumber (byteOf v 0) (byteOf v 1) (byteOf v 2) (byteOf v 3) := le32_toNat _ _ _ _
    _ = _ := by simp only [leNumber, byteOf_toNat]

/-! ### The two commands -/

/-- Settles O12: LBA_VALUE becomes LBA_BYTES, which is the number of its lanes. -/
theorem lbaDecReadsLittleEndian : Obligations.LbaDecReadsLittleEndian :=
  ⟨decodeUndoesEncode .lbaDec, fun s => ⟨_, exec_lbaDec s, toNat_eq_leBytes s.lbaBytes, rfl,
    ⟨rfl, rfl, rfl, rfl, rfl⟩, rfl⟩⟩

/-- Settles O13: LBA_BYTES becomes LBA_VALUE, so their lanes agree. -/
theorem lbaEncWritesLittleEndian : Obligations.LbaEncWritesLittleEndian :=
  ⟨decodeUndoesEncode .lbaEnc, fun s => ⟨_, exec_lbaEnc s, fun _ _ => rfl, rfl,
    ⟨rfl, rfl, rfl, rfl, rfl⟩, rfl⟩⟩

/-- Settles O14: each command copies its source, and the other copies it back. -/
theorem lbaRoundTrips : Obligations.LbaRoundTrips := fun s =>
  ⟨⟨_, _, exec_lbaEnc s, exec_lbaDec _, rfl⟩, ⟨_, _, exec_lbaDec s, exec_lbaEnc _, rfl⟩⟩

/-! ### The derived offset -/

/-- Offset 0x238 is LBA_BYTE_OFFSET_LO (10_state.md R34). -/
theorem readWindow_lbaByteOffsetLo (s : State) :
    s.readWindow 0x238#10 = s.lbaByteOffset.extractLsb' 0 32 := rfl

/-- Offset 0x23C is LBA_BYTE_OFFSET_HI (10_state.md R34). -/
theorem readWindow_lbaByteOffsetHi (s : State) :
    s.readWindow 0x23C#10 = (s.lbaByteOffset.extractLsb' 32 9).setWidth 32 := rfl

/-- Settles O15: the pair is the whole 41-bit value, which holds the product. -/
theorem lbaByteOffsetReads : Obligations.LbaByteOffsetReads := by
  intro s
  rw [readWindow_lbaByteOffsetHi, readWindow_lbaByteOffsetLo]
  calc _
    _ = s.lbaByteOffset.toNat := toNat_split41 _
    _ = s.lbaValue.toNat * 512 := times512_toNat _

end Sys2Proof.Machine
end

section
/-! The family 43_partition_entry.md: PE_DEC, PE_ENC, END_LBA and BYTE_COUNT. `exec_peEnc_stores` says once what
PE_ENC does to SECTOR; the two round trips add to it that decoding and encoding an entry undo each other up to
absent values and the attribute byte. -/

namespace Sys2Proof.Machine

/-! ### The entry at a slot -/

/-- Where LEN reaches the 16 bytes of a slot, so does EFFLEN: the slot lies inside SECTOR (10_state.md R23). -/
theorem entryOffset_add_le_effLen {s : State} {i : Slot} (h : entryOffset i + 16 ≤ s.len.toNat) :
    entryOffset i + 16 ≤ s.effLen :=
  (effLen_ge (by rw [entryOffset_eq]; omega)).mpr h

/-- The entry in SECTOR at a slot never fails the range checks of PE_ENC. -/
theorem Memory.entryAt_encodable (m : Memory) (i : Slot) : (m.entryAt i).Encodable := fun _ =>
  ⟨fun _ => chsUnpack_inRange _ _ _, fun _ => chsUnpack_inRange _ _ _⟩

/-- The bytes of the entry that SECTOR holds at a slot are SECTOR's own but for the attribute byte's low bits
(43_partition_entry.md R173). -/
theorem Memory.entryByte_entryAt (m : Memory) (i : Slot) {k : Nat} (hk : k < 16) :
    (m.entryAt i).entryByte k =
      (if k = 0 then m.read (entryOffset i + k) &&& 0x80#8 else m.read (entryOffset i + k)).toNat := by
  rw [Memory.entryAt_eq, entryByte_entryDecode _ hk]
  rcases k with _ | k <;> rfl

/-! ### The two commands -/

/-- PE_ENC of an encodable block puts its 16 bytes in the slot and keeps every other byte. -/
theorem exec_peEnc_stores {i : Slot} {s : State} (h : (s.slot i).Encodable) :
    ∃ m : Memory, exec (.peEnc i) s = .next (s.setSector m).completeOk ∧
      (s.sector.wf → ∀ k < 16, (m.read (entryOffset i + k)).toNat = (s.slot i).entryByte k) ∧
      ∀ a, a < entryOffset i ∨ entryOffset i + 16 ≤ a → m.read a = s.sector.read a := by
  obtain ⟨bs, hexec, -, hbytes⟩ := exec_peEnc_ok h
  have hlen : bs.length = 16 := length_of_map_eq hbytes
  refine ⟨_, hexec, fun hwf k hk => ?_, fun a ha => ?_⟩
  · have hk : k < bs.length := hlen ▸ hk
    rw [Memory.read_writeBytes hwf.1 _ hk, getElem_of_map_eq hbytes hk]
  · exact Memory.read_writeBytes_of_not_mem _ (hlen ▸ ha)

/-- A completed PE_DEC has the decoded entry in its slot and leaves the other slots. -/
theorem State.setSlot_completeOk_slot (s : State) (e : SlotBlock) (i k : Slot) :
    (s.setSlot i e).completeOk.slot k = if k = i then e else s.slot k :=
  s.setSlot_slot i k e

/-- Settles O16: where EFFLEN reaches the slot, PE_DEC loads the entry, whose fields are those of R171. -/
theorem peDecLoadsSlotOrReportsShort : Obligations.PeDecLoadsSlotOrReportsShort := by
  refine fun i s => ⟨encode_peDec_eq i ▸ decodeUndoesEncode (.peDec i), fun h => ?_, fun h => ?_⟩
  · refine ⟨_, exec_peDec_ok h, ?_, fun k hk => ?_, ⟨rfl, rfl, rfl, rfl, rfl⟩, rfl⟩
    · rw [State.setSlot_completeOk_slot, if_pos rfl]
      exact s.sector.entryAt_decodedFrom i
    · rw [State.setSlot_completeOk_slot, if_neg hk]
  · exact ⟨_, exec_peDec_short h, ⟨rfl, rfl, rfl, rfl, rfl⟩, rfl⟩

/-- Settles O17: an encodable block is stored (`exec_peEnc_stores`), any other reports its causes. -/
theorem peEncStoresEntryOrReportsRange : Obligations.PeEncStoresEntryOrReportsRange := by
  refine fun i s => ⟨encode_peEnc_eq i ▸ decodeUndoesEncode (.peEnc i), fun h hwf => ?_, fun h => ?_⟩
  · obtain ⟨m, hexec, hbytes, hrest⟩ := exec_peEnc_stores h
    exact ⟨_, hexec, hbytes hwf, hrest, ⟨rfl, rfl, rfl, rfl, rfl⟩, rfl⟩
  · exact ⟨_, exec_peEnc_range h, ⟨rfl, rfl, rfl, rfl, rfl⟩, rfl⟩

/-- Settles O18: PE_ENC stores 16 bytes at the slot or, on RANGE, none. -/
theorem peEncLeavesOtherBytes : Obligations.PeEncLeavesOtherBytes := by
  intro i s t ht
  rw [slotOffset_eq]
  by_cases h : (s.slot i).Encodable
  · obtain ⟨m, hexec, -, hrest⟩ := exec_peEnc_stores h
    obtain rfl := Host.Outcome.next.inj (hexec.symm.trans ht)
    exact ⟨hrest, rfl⟩
  · obtain rfl := Host.Outcome.next.inj ((exec_peEnc_range h).symm.trans ht)
    exact ⟨fun _ _ => rfl, rfl⟩

/-! ### The round trips -/

/-- Settles O19: PE_DEC finds the bytes of the block, which decode to its normal form
(`entryDecode_of_entryByte`). -/
theorem entryEncodeThenDecode : Obligations.EntryEncodeThenDecode := by
  intro i s hwf henc hlen
  obtain ⟨m, hexec, hbytes, -⟩ := exec_peEnc_stores henc
  have hslot : ((s.setSector m).completeOk.setSlot i (m.entryAt i)).completeOk.slot i =
      (s.slot i).normalised := by
    calc _
      _ = m.entryAt i := by rw [State.setSlot_completeOk_slot, if_pos rfl]
      _ = entryDecode fun k => m.read (entryOffset i + k) := m.entryAt_eq i
      _ = (s.slot i).normalised := entryDecode_of_entryByte henc (hbytes hwf)
  exact ⟨_, _, hexec, exec_peDec_ok (entryOffset_add_le_effLen hlen), hslot,
    fun hv hs he => hslot.trans (SlotBlock.normalised_self hv hs he)⟩

/-- Settles O20: PE_ENC stores the bytes of the entry that PE_DEC has just loaded. -/
theorem entryDecodeThenEncode : Obligations.EntryDecodeThenEncode := by
  intro i s hwf hlen
  have hslot : (s.setSlot i (s.sector.entryAt i)).completeOk.slot i = s.sector.entryAt i := by
    rw [State.setSlot_completeOk_slot, if_pos rfl]
  obtain ⟨m, hexec, hbytes, hrest⟩ := exec_peEnc_stores (hslot ▸ s.sector.entryAt_encodable i)
  refine ⟨_, _, exec_peDec_ok (entryOffset_add_le_effLen hlen), hexec, rfl, fun a => ?_⟩
  by_cases ha : entryOffset i ≤ a ∧ a < entryOffset i + 16
  · obtain ⟨k, rfl⟩ := Nat.exists_eq_add_of_le ha.1
    have hk : k < 16 := by omega
    have hbyte := hbytes hwf k hk
    rw [hslot, Memory.entryByte_entryAt _ _ hk] at hbyte
    simp only [Nat.add_eq_left]
    exact BitVec.eq_of_toNat_eq hbyte
  · rw [if_neg (by omega)]
    exact hrest a (by omega)

/-! ### The derived registers -/

/-- The word of a slot's register at the window offset of slot 0 plus 0x40 for each slot (10_state.md R35). -/
theorem readWindow_slotRegister (s : State) (i : Slot) {off : Nat} (h : off < 0x40) (h4 : off % 4 = 0) :
    s.readWindow (BitVec.ofNat 10 (0x300 + off + 0x40 * i.val)) = (s.slot i).readReg (slotRegAt off) := by
  rw [Nat.add_right_comm]
  exact readWindow_slotWindow s i h h4

/-- Settles O43: the pair is the whole 33-bit value, which holds the sum. -/
theorem endLbaReadsExactly : Obligations.EndLbaReadsExactly := by
  intro s i
  have hhi := readWindow_slotRegister s i (off := 0x28) (by decide) (by decide)
  have hlo := readWindow_slotRegister s i (off := 0x24) (by decide) (by decide)
  rw [hhi, hlo]
  calc _
    _ = (s.slot i).endLba.toNat := toNat_split33 _
    _ = _ := SlotBlock.endLba_toNat _

/-- Settles O44: the pair is the whole 41-bit value, which holds the product. -/
theorem byteCountReadsExactly : Obligations.ByteCountReadsExactly := by
  intro s i
  have hhi := readWindow_slotRegister s i (off := 0x30) (by decide) (by decide)
  have hlo := readWindow_slotRegister s i (off := 0x2C) (by decide) (by decide)
  rw [hhi, hlo]
  calc _
    _ = (s.slot i).byteCount.toNat := toNat_split41 _
    _ = (s.slot i).sectorCount.toNat * 512 := times512_toNat _

end Sys2Proof.Machine
end

section
/-! The family 44_mbr.md: MBR_DEC and MBR_ENC. `loadRecord_slot` says which record MBR_DEC loads, and
`exec_mbrEnc_builds` says once what the sector of MBR_ENC holds (`EncodedSector`); the two laws follow from these
and the round trips of an entry. -/

namespace Sys2Proof.Machine

/-! ### The record that MBR_DEC loads -/

@[simp] theorem State.loadRecord_slot (s : State) (i : Slot) : s.loadRecord.slot i = s.sector.entryAt i := by
  fin_cases i <;> rfl

/-- The disk signature that MBR_DEC loads is present, so MBR_ENC writes it (10_state.md R31). -/
theorem State.loadRecord_encodedSig (s : State) : s.loadRecord.encodedSig = s.sector.read32 0x1B8 := rfl

/-- SIG_OK of MBR_DEC is the validator's output in the terms of `State.Signed` (44_mbr.md R205). -/
theorem sigValid_eq_decide (s : State) : sigValid s.sector = decide s.Signed :=
  Bool.eq_iff_iff.mpr ((sigValid_iff s).trans decide_eq_true_iff.symm)

/-- Settles O21: the three outcomes in the order of R200, the record read off `loadRecord`. -/
theorem mbrDecOutcomes : Obligations.MbrDecOutcomes := by
  refine ⟨decodeUndoesEncode (.mbrDec false), decodeUndoesEncode (.mbrDec true), fun ign s => ⟨fun hshort => ?_,
    fun hlen hsig hign => ?_, fun hlen hgate => ?_⟩⟩
  · have heff : s.effLen < 512 := by unfold State.effLen; omega
    exact ⟨_, exec_mbrDec_short heff, ⟨rfl, rfl, rfl, rfl, rfl⟩, rfl⟩
  · subst hign
    exact ⟨_, exec_mbrDec_nosig ((effLen_ge le_rfl).mpr hlen) hsig, ⟨rfl, rfl, rfl, rfl, rfl⟩, rfl⟩
  · refine ⟨_, exec_mbrDec_ok ((effLen_ge le_rfl).mpr hlen) hgate, ⟨rfl, sigValid_eq_decide s, rfl, rfl, rfl⟩,
      le32_toNat _ _ _ _, rfl, fun i => ?_, rfl⟩
    rw [State.complete_slot, State.loadRecord_slot]
    exact s.sector.entryAt_decodedFrom i

/-! ### The bytes that MBR_DEC reads -/

/-- `entry_decode` reads 16 bytes (43_partition_entry.md R171). -/
theorem entryDecode_congr {e f : Nat → Byte} (h : ∀ k < 16, e k = f k) : entryDecode e = entryDecode f := by
  simp [entryDecode, h]

/-- Two sector buffers agree on the disk signature, the four entries and the boot signature
(44_mbr.md R201). -/
def Memory.SameRecordBytes (m n : Memory) : Prop :=
  ∀ a, (0x1B8 ≤ a ∧ a ≤ 0x1BB) ∨ (0x1BE ≤ a ∧ a ≤ 0x1FF) → m.read a = n.read a

theorem Memory.SameRecordBytes.entryAt_eq {m n : Memory} (h : m.SameRecordBytes n) (i : Slot) :
    m.entryAt i = n.entryAt i := by
  rw [Memory.entryAt_eq, Memory.entryAt_eq]
  exact entryDecode_congr fun k hk => h _ (by rw [entryOffset_eq]; omega)

theorem Memory.SameRecordBytes.read32_eq {m n : Memory} (h : m.SameRecordBytes n) :
    m.read32 0x1B8 = n.read32 0x1B8 := by
  simp [Memory.read32, h 0x1B8, h 0x1B9, h 0x1BA, h 0x1BB]

theorem Memory.SameRecordBytes.sigValid_eq {m n : Memory} (h : m.SameRecordBytes n) :
    sigValid m = sigValid n := by
  simp [sigValid, Memory.read16, h 0x1FE, h 0x1FF]

/-- Settles O22: LEN and the record bytes fix the gate of MBR_DEC, its SIG_OK and the record that it loads. -/
theorem mbrDecReadsOnlyRecordBytes : Obligations.MbrDecReadsOnlyRecordBytes := by
  intro ign s s' hlen (hsame : s.sector.SameRecordBytes s'.sector)
  have heff : s.effLen = s'.effLen := by simp [State.effLen, hlen]
  have hsigned : s.Signed ↔ s'.Signed := by rw [← sigValid_iff, ← sigValid_iff, hsame.sigValid_eq]
  by_cases hfull : 512 ≤ s.effLen
  · by_cases hgate : s.Signed ∨ ign = true
    · refine ⟨_, _, exec_mbrDec_ok hfull hgate, exec_mbrDec_ok (heff ▸ hfull) (hgate.imp_left hsigned.mp), rfl,
        hsame.sigValid_eq, rfl, fun _ => ⟨hsame.read32_eq, rfl, SlotBank.ext_get fun i => ?_⟩⟩
      calc s.loadRecord.slot i
        _ = s.sector.entryAt i := s.loadRecord_slot i
        _ = s'.sector.entryAt i := hsame.entryAt_eq i
        _ = s'.loadRecord.slot i := (s'.loadRecord_slot i).symm
    · push Not at hgate
      obtain ⟨hsig, hign⟩ := hgate
      obtain rfl : ign = false := by simpa using hign
      exact ⟨_, _, exec_mbrDec_nosig hfull hsig, exec_mbrDec_nosig (heff ▸ hfull) (hsigned.not.mp hsig), rfl, rfl,
        rfl, nofun⟩
  · have hshort : s.effLen < 512 := by omega
    exact ⟨_, _, exec_mbrDec_short hshort, exec_mbrDec_short (heff ▸ hshort), rfl, rfl, rfl, nofun⟩

/-! ### The sector that MBR_ENC builds -/

/-- The 512 bytes of 44_mbr.md R203 from the record of a state. -/
structure EncodedSector (s : State) (m : Memory) : Prop where
  diskSig : ∀ k < 4, m.read (0x1B8 + k) = byteOf s.encodedSig k
  entry : ∀ (i : Slot), ∀ k < 16, (m.read (entryOffset i + k)).toNat = (s.slot i).entryByte k
  bootSig : m.read 0x1FE = 0x55#8 ∧ m.read 0x1FF = 0xAA#8
  blank : ∀ a, a < 0x1B8 ∨ a = 0x1BC ∨ a = 0x1BD → m.read a = 0x00#8

/-- MBR_ENC of encodable slots builds the sector of R203 and sets LEN. -/
theorem exec_mbrEnc_builds {s : State} (h : ∀ i, (s.slot i).Encodable) :
    ∃ m, exec .mbrEnc s = .next ((s.setSector m).setLen 0x200#16).completeOk ∧ EncodedSector s m := by
  obtain ⟨bs, hexec, -, hbytes⟩ := exec_mbrEnc_ok h
  have hlen : bs.length = 64 := length_of_map_eq hbytes
  obtain ⟨hsig, hentries, h55, hAA, hblank⟩ := freshSector_read s.encodedSig hlen
  refine ⟨_, hexec, hsig, fun i k hk => ?_, ⟨h55, hAA⟩, fun a ha => hblank a (by omega)⟩
  have hpos : 16 * i.val + k < bs.length := by omega
  have hslot : Fin.ofNat 4 ((16 * i.val + k) / 16) = i := Fin.ext (by simp; omega)
  have hbyte : (16 * i.val + k) % 16 = k := by omega
  rw [entryOffset_eq, Nat.add_assoc, hentries _ hpos, getElem_of_map_eq hbytes hpos, hslot, hbyte]

/-- Settles O23: the bytes are those of `EncodedSector`, the disk signature as a number. -/
theorem mbrEncBuildsSector : Obligations.MbrEncBuildsSector := by
  refine ⟨decodeUndoesEncode .mbrEnc, fun s henc => ?_⟩
  obtain ⟨m, hexec, hm⟩ := exec_mbrEnc_builds henc
  refine ⟨_, hexec, fun k hk => ?_, hm.entry, hm.bootSig, hm.blank, rfl, ⟨rfl, rfl, rfl, rfl, rfl⟩, rfl⟩
  calc (m.read (0x1B8 + k)).toNat
    _ = leByte s.encodedSig k := by rw [hm.diskSig k hk, byteOf_toNat]
    _ = if s.diskSigValid then leByte s.diskSig k else 0 := by
      cases hv : s.diskSigValid <;> simp [State.encodedSig, hv, leByte]

/-- Settles O24: the four entries fail with the causes of the least slot that is not encodable. -/
theorem mbrEncReportsLeastFailingSlot : Obligations.MbrEncReportsLeastFailingSlot := fun _ _ hfail hleast =>
  ⟨_, exec_mbrEnc_range hfail hleast, ⟨rfl, rfl, rfl, rfl, rfl⟩, rfl⟩

/-! ### The laws -/

/-- The disk signature that MBR_DEC finds in an encoded sector is the encoded one. -/
theorem EncodedSector.read32_diskSig {s : State} {m : Memory} (h : EncodedSector s m) :
    m.read32 0x1B8 = s.encodedSig := by
  rw [← le32_byteOf s.encodedSig, ← h.diskSig 0 (by decide), ← h.diskSig 1 (by decide),
    ← h.diskSig 2 (by decide), ← h.diskSig 3 (by decide)]
  rfl

/-- The entry that MBR_DEC finds in an encoded sector is the encoded block, normalised. -/
theorem EncodedSector.entryAt_eq {s : State} {m : Memory} (h : EncodedSector s m) {i : Slot}
    (henc : (s.slot i).Encodable) : m.entryAt i = (s.slot i).normalised := by
  rw [Memory.entryAt_eq]
  exact entryDecode_of_entryByte henc (h.entry i)

/-- Settles O25: the encoded sector is full and signed, so the gate is open, and it holds the record. -/
theorem mbrEncodeThenDecode : Obligations.MbrEncodeThenDecode := by
  intro s t ht hok
  have henc := encodable_of_exec_mbrEnc ht hok
  obtain ⟨m, hexec, hm⟩ := exec_mbrEnc_builds henc
  obtain rfl := Host.Outcome.next.inj (hexec.symm.trans ht)
  have hsigned : ((s.setSector m).setLen 0x200#16).completeOk.Signed := hm.bootSig
  refine ⟨_, exec_mbrDec_ok ((effLen_ge le_rfl).mpr (Nat.le_refl 512)) (.inl hsigned),
    ⟨rfl, (sigValid_iff _).mpr hsigned, rfl, rfl, rfl⟩, hm.read32_diskSig, rfl, fun i => ?_⟩
  rw [State.complete_slot, State.loadRecord_slot]
  exact hm.entryAt_eq (henc i)

/-- The bytes of a word of SECTOR are the bytes it was read from. -/
theorem byteOf_read32 (m : Memory) (off : Nat) {k : Nat} (hk : k < 4) :
    byteOf (m.read32 off) k = m.read (off + k) := by
  have h := byteOf_le32 (m.read off) (m.read (off + 1)) (m.read (off + 2)) (m.read (off + 3))
  simp only [bytesOf32, List.cons.injEq, and_true] at h
  obtain ⟨h0, h1, h2, h3⟩ := h
  interval_cases k
  · exact h0
  · exact h1
  · exact h2
  · exact h3

/-- An address among the four entries is a byte of one of them. -/
theorem exists_entryOffset_add {a : Nat} (hlow : 0x1BE ≤ a) (hhigh : a < 0x1FE) :
    ∃ i : Slot, ∃ k < 16, a = entryOffset i + k :=
  ⟨⟨(a - 0x1BE) / 16, by omega⟩, (a - 0x1BE) % 16, by omega, by rw [entryOffset_eq]; dsimp only; omega⟩

/-- The attribute bytes are at the four offsets of 30_encoding.md R92. -/
theorem entryOffset_add_isAttribute_iff (i : Slot) {k : Nat} (hk : k < 16) :
    (entryOffset i + k = 0x1BE ∨ entryOffset i + k = 0x1CE ∨ entryOffset i + k = 0x1DE ∨
      entryOffset i + k = 0x1EE) ↔ k = 0 := by
  rw [entryOffset_eq]
  omega

/-- The disk signature bytes of a sector encoded from a decoded one are those decoded. -/
theorem EncodedSector.read_diskSig {s t : State} {m : Memory} (h : EncodedSector t m)
    (hsig : t.encodedSig = s.sector.read32 0x1B8) {k : Nat} (hk : k < 4) :
    m.read (0x1B8 + k) = s.sector.read (0x1B8 + k) := by
  rw [h.diskSig k hk, hsig, byteOf_read32 _ _ hk]

/-- The entry bytes of a sector encoded from a decoded one are those decoded, but for the low bits of the attribute
byte (43_partition_entry.md R173). -/
theorem EncodedSector.read_entry {s t : State} {m : Memory} (h : EncodedSector t m)
    (hslot : ∀ i, t.slot i = s.sector.entryAt i) (i : Slot) {k : Nat} (hk : k < 16) :
    m.read (entryOffset i + k) =
      if k = 0 then s.sector.read (entryOffset i + k) &&& 0x80#8 else s.sector.read (entryOffset i + k) := by
  apply BitVec.eq_of_toNat_eq
  rw [h.entry i k hk, hslot, Memory.entryByte_entryAt _ _ hk]

/-- Settles O26: region by region, MBR_ENC stores blanks, the disk signature that MBR_DEC read, the entries that it
decoded and a fresh boot signature. -/
theorem mbrDecodeThenEncode : Obligations.MbrDecodeThenEncode := by
  intro ign s t ht hok
  obtain ⟨hfull, hgate⟩ := gate_of_exec_mbrDec ht hok
  obtain rfl := Host.Outcome.next.inj ((exec_mbrDec_ok hfull hgate).symm.trans ht)
  have hslot : ∀ i, (s.loadRecord.complete .ok (sigValid s.sector) RangeInfo.clear).slot i = s.sector.entryAt i :=
    s.loadRecord_slot
  obtain ⟨m, hexec, hm⟩ := exec_mbrEnc_builds fun i => hslot i ▸ s.sector.entryAt_encodable i
  refine ⟨_, hexec, rfl, fun a ha => ?_⟩
  change m.read a = _
  by_cases hblank : a < 0x1B8 ∨ a = 0x1BC ∨ a = 0x1BD
  · rw [if_pos hblank, hm.blank a hblank]
  rw [if_neg hblank]
  by_cases hsig : a < 0x1BC
  · obtain ⟨k, rfl⟩ := Nat.exists_eq_add_of_le (show 0x1B8 ≤ a by omega)
    rw [if_neg (by omega), if_neg (by omega), if_neg (by omega)]
    exact hm.read_diskSig s.loadRecord_encodedSig (by omega)
  by_cases hentry : a < 0x1FE
  · obtain ⟨i, k, hk, rfl⟩ := exists_entryOffset_add (by omega) hentry
    rw [hm.read_entry hslot i hk]
    simp only [entryOffset_add_isAttribute_iff i hk]
    rw [if_neg (c := _ = 0x1FE) (by omega), if_neg (c := _ = 0x1FF) (by omega)]
  obtain ⟨h55, hAA⟩ := hm.bootSig
  obtain rfl | rfl : a = 0x1FE ∨ a = 0x1FF := by omega
  · exact h55
  · exact hAA

end Sys2Proof.Machine
end

section
/-! The family 60_exceptions.md: the outcome table. `outcomes` is the table of R231 read by command, and
`exec_outcome` says that a command completes with one of its outcomes. -/

namespace Sys2Proof.Machine

/-! ### The table -/

/-- The outcomes of each command (60_exceptions.md R231). -/
def outcomes : Instr → List ResultCode
  | .chsDec | .lbaDec | .lbaEnc => [.ok]
  | .chsEnc | .peEnc _ | .mbrEnc => [.ok, .range]
  | .peDec _ => [.ok, .short]
  | .mbrDec ign => .ok :: .short :: if ign then [] else [.nosig]

theorem short_mem_outcomes {i : Instr} :
    .short ∈ outcomes i ↔ (∃ k, i = .peDec k) ∨ ∃ g, i = .mbrDec g := by
  cases i <;> simp [outcomes]

theorem nosig_mem_outcomes {i : Instr} : .nosig ∈ outcomes i ↔ i = .mbrDec false := by
  cases i <;> simp [outcomes]

theorem range_mem_outcomes {i : Instr} :
    .range ∈ outcomes i ↔ i = .chsEnc ∨ (∃ k, i = .peEnc k) ∨ i = .mbrEnc := by
  cases i <;> simp [outcomes]

/-- A command that runs has an outcome (60_exceptions.md R230). -/
theorem none_notMem_outcomes (i : Instr) : .none ∉ outcomes i := by
  cases i <;> simp [outcomes]

/-- ILLEGAL is the outcome of no command (60_exceptions.md R236). -/
theorem illegal_notMem_outcomes (i : Instr) : .illegal ∉ outcomes i := by
  cases i <;> simp [outcomes]

/-! ### The codes -/

/-- Distinct outcomes have distinct RESULT codes (10_state.md R25). -/
theorem ResultCode.code_injective : Function.Injective ResultCode.code := by
  intro r q h
  revert h
  cases r <;> cases q <;> decide

/-- The codes of the table are 1 to 5. -/
theorem ResultCode.code_bounds {r : ResultCode} (h : r ≠ .none) : 1 ≤ r.code.toNat ∧ r.code.toNat ≤ 5 := by
  cases r with
  | none => exact absurd rfl h
  | ok | short | nosig | range | illegal => decide

/-! ### The commands -/

/-- A command completes with one of its outcomes, in every state. -/
theorem exec_outcome (i : Instr) (s : State) :
    ∃ r ∈ outcomes i, ∃ (s' : State) (b : Bool) (info : RangeInfo), exec i s = .next (s'.complete r b info) := by
  cases i with
  | chsDec => exact ⟨.ok, by simp [outcomes], _, _, _, exec_chsDec s⟩
  | chsEnc =>
    by_cases h : s.chs.InRange
    · exact ⟨.ok, by simp [outcomes], _, _, _, exec_chsEnc_ok h⟩
    · exact ⟨.range, by simp [outcomes], _, _, _, exec_chsEnc_range h⟩
  | lbaDec => exact ⟨.ok, by simp [outcomes], _, _, _, exec_lbaDec s⟩
  | lbaEnc => exact ⟨.ok, by simp [outcomes], _, _, _, exec_lbaEnc s⟩
  | peDec k =>
    by_cases h : s.effLen < entryOffset k + 16
    · exact ⟨.short, by simp [outcomes], _, _, _, exec_peDec_short h⟩
    · exact ⟨.ok, by simp [outcomes], _, _, _, exec_peDec_ok (Nat.le_of_not_lt h)⟩
  | peEnc k =>
    by_cases h : (s.slot k).Encodable
    · obtain ⟨m, hexec, -⟩ := exec_peEnc_stores h
      exact ⟨.ok, by simp [outcomes], _, _, _, hexec⟩
    · exact ⟨.range, by simp [outcomes], _, _, _, exec_peEnc_range h⟩
  | mbrDec g =>
    by_cases hlen : s.effLen < 512
    · exact ⟨.short, by simp [outcomes], _, _, _, exec_mbrDec_short hlen⟩
    · have hlen := Nat.le_of_not_lt hlen
      by_cases hgate : s.Signed ∨ g = true
      · exact ⟨.ok, by simp [outcomes], _, _, _, exec_mbrDec_ok hlen hgate⟩
      · push Not at hgate
        obtain ⟨hsig, hign⟩ := hgate
        obtain rfl : g = false := by simpa using hign
        exact ⟨.nosig, by simp [outcomes], _, _, _, exec_mbrDec_nosig hlen hsig⟩
  | mbrEnc =>
    rcases encodable_or_least s.slots with h | ⟨k, hfail, hleast⟩
    · obtain ⟨m, hexec, -⟩ := exec_mbrEnc_builds h
      exact ⟨.ok, by simp [outcomes], _, _, _, hexec⟩
    · exact ⟨.range, by simp [outcomes], _, _, _, exec_mbrEnc_range (s := s) hfail hleast⟩

/-- Settles O6: a word of R94 completes ILLEGAL, and any other is a command with an outcome of its row. -/
theorem outcomeTableIsComplete : Obligations.OutcomeTableIsComplete := by
  intro w s
  cases hw : CommandWord.wellFormed w with
  | false =>
    obtain ⟨why, hd⟩ := decode_illegal_of_not_wellFormed hw
    obtain ⟨hlow, hhigh⟩ := ResultCode.code_bounds (r := .illegal) nofun
    exact ⟨_, runWord_of_illegal hd s, rfl, hlow, hhigh, nofun, nofun, nofun, fun _ => rfl, fun _ => rfl⟩
  | true =>
    obtain ⟨i, hd⟩ := (decodeAcceptsExactlyWellFormedWords w).mpr hw
    obtain ⟨r, hr, s', b, info, hexec⟩ := exec_outcome i s
    obtain ⟨hlow, hhigh⟩ := ResultCode.code_bounds (ne_of_mem_of_not_mem hr (none_notMem_outcomes i))
    have reports {q : ResultCode} (h : r.code = q.code) : q ∈ outcomes i := ResultCode.code_injective h ▸ hr
    simp only [hd, Decoded.command.injEq]
    refine ⟨_, (runWord_of_command hd s).trans hexec, rfl, hlow, hhigh, fun h => ?_, fun h => ?_, fun h => ?_, ?_⟩
    · exact short_mem_outcomes.mp (reports h)
    · exact nosig_mem_outcomes.mp (reports h)
    · exact range_mem_outcomes.mp (reports h)
    · exact iff_of_false (fun h => illegal_notMem_outcomes i (reports h)) nofun

end Sys2Proof.Machine
end

section
/-! The family 70_reset_and_hazards.md: reset, reads while BUSY, and the completion handshake. A read in a busy cycle
only adds to the port's bookkeeping (`advance_busyRead`), so a WAIT loop follows the command in flight, one poll for
each cycle of its latency, and its next poll finds BUSY = 0. -/

namespace Sys2Proof.Machine

/-! ### Reset -/

/-- Settles O56: reset has priority over the transaction and the command in flight. -/
theorem resetCycleRestoresEverything : Obligations.ResetCycleRestoresEverything := by
  intro s x rest hl hp
  obtain ⟨hpresented, hpop⟩ := presented_of_port hp
  rw [step_reset hl (by rw [hpresented]), hpop]
  rfl

/-! ### Reads while BUSY -/

/-- A read while BUSY = 1 returns one word, at STATUS the exact one (70_reset_and_hazards.md R270). -/
theorem busyTransaction_read (a : BitVec 10) (s : State) :
    ∃ w, (busyTransaction (some (.read a)) s).reads = w :: s.reads ∧ (target a = .status → w = s.statusWord) := by
  by_cases ht : target a = .status
  · exact ⟨s.statusWord, by simp [busyTransaction, ht, State.respond], fun _ => rfl⟩
  · exact ⟨Config.busyRead s.draws, by simp [busyTransaction, ht, State.respondDraw, State.respond],
      fun h => absurd h ht⟩

/-- A busy cycle with a read ends as one without, but for the word returned and the count of draws. -/
theorem advance_busyRead (j : InFlight) (a : BitVec 10) (s : State) :
    ∃ t u w, advance j (busyTransaction (some (.read a)) s) = .next t ∧ advance j s = .next u ∧
      t.reads = w :: s.reads ∧ t = { u with reads := t.reads, draws := t.draws } ∧
      (target a = .status → w = s.statusWord) := by
  obtain ⟨ksame, kport, kovr⟩ := busyTransaction_keeps (some (.read a)) s
  obtain ⟨w, hreads, hword⟩ := busyTransaction_read a s
  obtain ⟨t, u, ht, hu, hsame, tport, tovr, treads, -⟩ := advance_hideTraffic j _ s ksame
  obtain ⟨u', -, hu', -, -, uport, uovr, -⟩ := advance_hideTraffic j s s rfl
  obtain rfl : u = u' := Host.Outcome.next.inj (hu.symm.trans hu')
  have hport : t.port = u.port := by rw [tport, kport, uport]
  have hovr : t.status.ovr = u.status.ovr := by
    rw [tovr, kovr, uovr, PortCycle.strobedWrite, Bool.or_false]
  refine ⟨t, u, w, ht, hu, treads.trans hreads, ?_, hword⟩
  calc t
    _ = u.withTraffic t.status.ovr t.port t.reads t.draws := eq_withTraffic hsame
    _ = { u with reads := t.reads, draws := t.draws } := by rw [hport, hovr]; rfl

/-- An idle busy cycle is the sequencer's part alone. -/
theorem step_withIdleCycle_busy {s : State} {j : InFlight} (hl : s.resultLegal = true) (hi : s.inflight = some j) :
    step s.withIdleCycle = advance j (s.setPort s.port.tail) :=
  step_of_presents_busy (s := s.withIdleCycle) (x := none) hl hi rfl

/-- Settles O34: the read comes before the sequencer's part of the cycle, which does not see it. -/
theorem busyReadsOnlyStatusExactly : Obligations.BusyReadsOnlyStatusExactly := by
  intro s rest a j hl hi hp
  obtain ⟨t, u, w, ht, hu, hreads, hsame, hword⟩ := advance_busyRead j a (s.setPort rest)
  refine ⟨t, u, w, (step_of_presents_busy hl hi hp).trans ht, ?_, hreads, hsame, fun ha => ?_⟩
  · rw [step_withIdleCycle_busy hl hi, hp]
    exact hu
  · have hw : w = s.statusWord := hword ((target_status_iff a).mpr ha)
    exact ⟨hw, by rw [hw, statusWord_bit8, State.busy, hi, Option.isSome_some]⟩

/-! ### The WAIT loop -/

theorem target_wait : target 0x204#10 = .status := (target_status_iff _).mpr (by decide)

/-- A poll while BUSY = 1 is an idle cycle in effect, and the loop goes on (30_encoding.md R101). -/
theorem waitLoop_busy {s : State} {j : InFlight} (hl : s.resultLegal = true) (hi : s.inflight = some j)
    (fuel : Nat) :
    ∃ t u, waitLoop (fuel + 1) s = waitLoop fuel t ∧ advance j s = .next u ∧ t.hideTraffic = u.hideTraffic ∧
      t.status.ovr = s.status.ovr := by
  obtain ⟨t, u, w, ht, hu, hreads, hsame, hword⟩ := advance_busyRead j 0x204#10 s
  have hbit : t.lastRead.getLsbD 8 = true := by
    rw [State.lastRead, hreads, List.headD_cons, hword target_wait, statusWord_bit8, State.busy, hi,
      Option.isSome_some]
  refine ⟨t, u, ?_, hu, (congrArg State.hideTraffic hsame).trans rfl, ?_⟩
  · rw [waitLoop, hostTransaction_busy hl hi, ht]
    exact if_pos hbit
  · calc t.status.ovr
      _ = u.status.ovr := by rw [hsame]
      _ = s.status.ovr := advance_ovr hu

/-- A poll while BUSY = 0 ends the loop. -/
theorem waitLoop_ready {s : State} (hl : s.resultLegal = true) (hi : s.inflight = none) (fuel : Nat) :
    waitLoop (fuel + 1) s = .next (s.respond s.statusWord) := by
  have hread : s.readWindow 0x204#10 = s.statusWord := by rw [State.readWindow, target_wait]; rfl
  have hbit : (s.respond s.statusWord).lastRead.getLsbD 8 = false := by
    show s.statusWord.getLsbD 8 = false
    rw [statusWord_bit8, State.busy, hi, Option.isSome_none]
  rw [waitLoop, hostTransaction_ready hl hi, readyCycle, hread]
  exact if_neg (Bool.not_eq_true _ ▸ hbit)

/-- A completed command leaves a RESULT that is produced (10_state.md R25). -/
theorem runWord_resultLegal {w : Word} {s t : State} (h : runWord w s = .next t) : t.resultLegal = true := by
  obtain ⟨s', r, b, info, he, -, hr, -⟩ := runWord_shape w s
  obtain rfl := Host.Outcome.next.inj (he.symm.trans h)
  obtain ⟨hresult, -⟩ := hr.consistent s'
  exact (resultLegal_iff _).mpr hresult

/-- WAIT after a completion, with other traffic or none, ends with its first poll. -/
theorem waitLoop_completed {w : Word} {s t u : State} (hrun : runWord w s = .next u)
    (hsame : t.hideTraffic = u.hideTraffic) (fuel : Nat) :
    waitLoop (fuel + 1) t = .next (t.respond t.statusWord) ∧ t.busy = false := by
  obtain ⟨-, -, uinflight⟩ := runWord_keeps hrun
  have tinflight : t.inflight = none := (congrArg State.inflight hsame).trans uinflight
  have tlegal : t.resultLegal = true := (resultLegal_of_hideTraffic hsame).trans (runWord_resultLegal hrun)
  exact ⟨waitLoop_ready tlegal tinflight fuel, by rw [State.busy, tinflight, Option.isSome_none]⟩

/-- WAIT on a command in flight, with more polls than its remaining latency, ends with the command complete; by
induction on the remaining latency. -/
theorem waitLoop_inFlight {n fuel : Nat} {w : Word} {s : State} (hl : s.resultLegal = true)
    (hi : s.inflight = some { word := w, remaining := n + 1 }) :
    ∃ t u, waitLoop (fuel + n + 2) s = .next t ∧ runWord w s = .next u ∧ t.busy = false ∧
      t.status.ovr = s.status.ovr ∧ t.hideTraffic = u.hideTraffic := by
  induction n generalizing s with
  | zero =>
    obtain ⟨t, u, hwait, hrun, hsame, hovr⟩ := waitLoop_busy hl hi (fuel + 1)
    obtain ⟨hdone, hbusy⟩ := waitLoop_completed (w := w) hrun hsame fuel
    exact ⟨_, u, hwait.trans hdone, hrun, hbusy, hovr, hsame⟩
  | succ n ih =>
    obtain ⟨s1, u1, hwait, hu1, hsame, hovr⟩ := waitLoop_busy hl hi (fuel + n + 2)
    obtain rfl : s.setInflight (some { word := w, remaining := n + 1 }) = u1 := Host.Outcome.next.inj hu1
    obtain ⟨t, v, ht, hv, tbusy, tovr, htv⟩ :=
      ih ((resultLegal_of_hideTraffic hsame).trans hl) (congrArg State.inflight hsame)
    obtain ⟨v', u, hv', hu, hvu, -⟩ := runWord_hideTraffic w hsame
    obtain rfl : v = v' := Host.Outcome.next.inj (hv.symm.trans hv')
    rw [runWord_setInflight] at hu
    exact ⟨t, u, hwait.trans ht, hu, tbusy, tovr.trans hovr, htv.trans hvu⟩

/-! ### The handshake -/

/-- A write with every lane strobed replaces the whole word (20_memory.md R64). -/
theorem merge_allLanes (old d : Word) : merge old d 0b1111#4 = d := le32_byteOf d

/-- A command presented to a ready machine is started by its CMD write. -/
theorem hostTransaction_command {s : State} (hl : s.resultLegal = true) (hi : s.inflight = none) (w : Word) :
    hostTransaction (.write 0x200#10 w 0b1111#4) s = startCommand w s := by
  have hcmd : target 0x200#10 = .cmd := (target_cmd_iff _).mpr (by decide)
  rw [hostTransaction_ready hl hi, readyCycle, if_neg (by decide), if_pos hcmd, merge_allLanes]

/-- The statement of a command is WAIT on the state that its CMD write leaves. -/
theorem runStatement_command {s t : State} {i : Instr} (hl : s.resultLegal = true) (hi : s.inflight = none)
    (h : startCommand (encode i) s = .next t) (fuel : Nat) :
    runStatement fuel (.command i) s = waitLoop fuel t := by
  rw [runStatement, hostTransaction_command hl hi, h]

/-- Settles O51: with latency 0 the command is complete at the first poll; otherwise it is in flight, and the WAIT
loop outlasts its latency (`waitLoop_inFlight`). -/
theorem handshakeDeliversResults : Obligations.HandshakeDeliversResults := by
  intro fuel i s hl hi _ hfuel
  rw [← runWord_of_command (decodeUndoesEncode i)]
  have hstart := startCommand_eq (encode i) s
  rcases hlat : latency (encode i) with _ | n
  · obtain ⟨u, hu⟩ := runWord_next (encode i) (s.setCmd (encode i))
    rw [if_pos hlat, hu] at hstart
    obtain ⟨f, rfl⟩ : ∃ f, fuel = f + 1 := ⟨fuel - 1, by omega⟩
    obtain ⟨hdone, hbusy⟩ := waitLoop_completed hu rfl f
    exact ⟨_, u, (runStatement_command hl hi hstart _).trans hdone, hu, hbusy, (runWord_keeps hu).2.1, rfl⟩
  · rw [if_neg (by omega)] at hstart
    obtain ⟨f, rfl⟩ : ∃ f, fuel = f + n + 2 := ⟨fuel - (n + 2), by omega⟩
    have hinflight : (s.accept (encode i)).inflight = some { word := encode i, remaining := n + 1 } := by
      rw [← hlat]; rfl
    obtain ⟨t, u, ht, hu, tbusy, tovr, htu⟩ := waitLoop_inFlight (fuel := f) (s := s.accept (encode i)) hl hinflight
    rw [State.accept, runWord_setInflight] at hu
    exact ⟨t, u, (runStatement_command hl hi hstart _).trans ht, hu, tbusy, tovr, htu⟩

end Sys2Proof.Machine
end
